-- ==== Sys2Proof/Word.lean ====
section
/-!
DEFINITION. The machine's word and the byte of its host channels (spec/00_scope.md R5 WORD_BITS, R8; spec/10_state.md R41).
-/

namespace Sys2Proof

/-- A word: an unsigned 16-bit integer; all its arithmetic wraps modulo 2^16 (R8). Registers, memory cells, addresses
and instructions are words. -/
abbrev Word := BitVec 16

/-- A byte of the host's input and output channels, 0 to 255 (R41, R45). -/
abbrev Byte := BitVec 8

end Sys2Proof
end

