-- ==== Sys2Proof/Syntax.lean ====
section
/-!
DEFINITION. The instructions as abstract terms: one constructor per row of spec/opcode_table.json (28 rows: the nineteen
primary rows of spec/30_encoding.md R126 and the nine alias rows of R125). The fields are those of R105.
-/

namespace Sys2Proof

/-- The eight general registers (R21). -/
inductive Reg where
  | r0 | r1 | r2 | r3 | r4 | r5 | r6 | r7
deriving DecidableEq, Repr

/-- One constructor per row of the opcode table. A row named with "alias_of" there (`ret`, `nop`, the six services and
`trapUnknown`) names some of its parent's words; Decode.lean reads a word as the most special row that has it, and
WellFormed.lean says which terms those are (log entry 19). Immediates and offsets are the raw fields, extended only when
an operand is formed (R117). -/
inductive Instr where
  /-- BR, R160: nzp = bits 11:9, pcOffset9. -/
  | br (nzp : BitVec 3) (off : BitVec 9)
  /-- ADD, register form, R141. -/
  | addReg (dr sr1 sr2 : Reg)
  /-- ADD, immediate form, R142. -/
  | addImm (dr sr1 : Reg) (imm : BitVec 5)
  /-- LD, R181. -/
  | ld (dr : Reg) (off : BitVec 9)
  /-- ST, R201. -/
  | st (sr : Reg) (off : BitVec 9)
  /-- JSRR, R165. -/
  | jsrr (base : Reg)
  /-- JSR, R164. -/
  | jsr (off : BitVec 11)
  /-- AND, register form, R143. -/
  | andReg (dr sr1 sr2 : Reg)
  /-- AND, immediate form, R144. -/
  | andImm (dr sr1 : Reg) (imm : BitVec 5)
  /-- LDR, R183. -/
  | ldr (dr base : Reg) (off : BitVec 6)
  /-- STR, R203. -/
  | str (sr base : Reg) (off : BitVec 6)
  /-- RTI, R260. -/
  | rti
  /-- NOT, R145. -/
  | not (dr sr1 : Reg)
  /-- LDI, R182. -/
  | ldi (dr : Reg) (off : BitVec 9)
  /-- STI, R202. -/
  | sti (sr : Reg) (off : BitVec 9)
  /-- JMP, R162. -/
  | jmp (base : Reg)
  /-- RES, R261. -/
  | res
  /-- LEA, R184. -/
  | lea (dr : Reg) (off : BitVec 9)
  /-- TRAP, the parent row of every vector, R220. -/
  | trap (vect : BitVec 8)
  /-- RET, JMP with base R7, R163. -/
  | ret
  /-- NOP, BR with nzp = 000, R161 (a): the offset is kept though it never matters. -/
  | nop (off : BitVec 9)
  /-- TRAP 0x20, R222. -/
  | trapGetc
  /-- TRAP 0x21, R223. -/
  | trapOut
  /-- TRAP 0x22, R224. -/
  | trapPuts
  /-- TRAP 0x23, R225. -/
  | trapIn
  /-- TRAP 0x24, R226. -/
  | trapPutsp
  /-- TRAP 0x25, R227. -/
  | trapHalt
  /-- TRAP with a vector outside 0x20 to 0x25, R228. -/
  | trapUnknown (vect : BitVec 8)
deriving DecidableEq, Repr

end Sys2Proof
end

