-- ==== Sys2Proof/Config.lean ====
section
/-!
DEFINITION. What an implementation fixes and what it leaves open (spec/00_scope.md R5): the configuration record, one field
for each parameter of that table that has a value, and the free values. The record's values are in
Sys2Proof/Machine/Parameters.lean.
-/

namespace Sys2Proof

/-- The configuration record of R5, under its names. The table's last three rows, the host input, the host output failure
and the initial memory, are arguments of the model: they stand in State (log entry 6), and in `loadImages`. -/
structure Parameters where
  /-- WORD_BITS: width of a word, of every register, of a memory cell, of an instruction. -/
  wordBits : Nat
  /-- ADDR_BITS: width of an address. -/
  addrBits : Nat
  /-- MEM_WORDS: number of memory cells. -/
  memWords : Nat
  /-- NUM_GPR: number of general registers. -/
  numGpr : Nat
  /-- LINK_REG: the register JSR, JSRR and TRAP write the return address to. -/
  linkReg : Reg
  /-- PC_RESET: PC at the start, whatever the origin of the loaded image. -/
  pcReset : Word
  /-- COND_RESET: COND at the start. -/
  condReset : Word
  /-- GPR_RESET: R0 to R7 at the start. -/
  gprReset : Word
  /-- MEM_RESET: every cell that no image wrote. -/
  memReset : Word
  /-- FL_POS: the COND value for a positive result. -/
  flPos : Word
  /-- FL_ZRO: the COND value for a zero result. -/
  flZro : Word
  /-- FL_NEG: the COND value for a negative result. -/
  flNeg : Word
  /-- KBSR: the keyboard status register's address. -/
  kbsr : Word
  /-- KBDR: the keyboard data register's address. -/
  kbdr : Word
  /-- KBSR_READY: what the poll stores in M[KBSR] when a byte was taken. -/
  kbsrReady : Word
  /-- TRAP_GETC. -/
  trapGetc : BitVec 8
  /-- TRAP_OUT. -/
  trapOut : BitVec 8
  /-- TRAP_PUTS. -/
  trapPuts : BitVec 8
  /-- TRAP_IN. -/
  trapIn : BitVec 8
  /-- TRAP_PUTSP. -/
  trapPutsp : BitVec 8
  /-- TRAP_HALT. -/
  trapHalt : BitVec 8
  /-- IN_PROMPT: what trap IN writes before it reads. -/
  inPrompt : List Byte
  /-- HALT_MESSAGE: what trap HALT writes. -/
  haltMessage : List Byte
  /-- PUTS_RENDER: how trap PUTS turns one word into output bytes. -/
  putsRender : Word → List Byte

/-- What the host does to the input channel before one step: the bytes it appends to the queue (R41), and whether a
blocking read that finds the queue empty is answered `Fail` from now on (R43). -/
structure HostTurn where
  arrive : List Byte
  inputFails : Bool
deriving DecidableEq, Repr, Inhabited

/-- PUTS_RENDER on a word above 0x007F: which bytes trap PUTS writes there is OPEN (R5, R224; D8, U8; log entry 9).
A free value: it has no body, so nothing can be proved of it. -/
opaque Config.putsRenderOpen : Word → List Byte

/-- The input oracle (R5 host input, R40, R41; D5, D6; log entry 24): what the host does before the n-th step after the
written-out part of its behaviour is used up. A free value: it may send bytes for ever, stop, or fail. -/
opaque Config.hostInput : Nat → HostTurn

end Sys2Proof
end

