-- ==== Sys2Proof/Machine/Parameters.lean ====
section
/-!
DEFINITION. The values of the configuration record (spec/00_scope.md R5), and a short name for each that the machine reads.
-/

namespace Sys2Proof

/-- The parameters of this hardware (R5). GPR_RESET is the spec's own decision D1 (log entry 2); the bytes of IN_PROMPT
("Enter character: ") and HALT_MESSAGE ("HALT") are decision D11 (log entry 12); PUTS_RENDER is fixed for words up to 0x007F
and open above (D8, log entry 9). -/
def parameters : Parameters where
  wordBits := 16
  addrBits := 16
  memWords := 65536
  numGpr := 8
  linkReg := .r7
  pcReset := 0x3000#16
  condReset := 0x0002#16
  gprReset := 0x0000#16
  memReset := 0x0000#16
  flPos := 0x0001#16
  flZro := 0x0002#16
  flNeg := 0x0004#16
  kbsr := 0xFE00#16
  kbdr := 0xFE02#16
  kbsrReady := 0x8000#16
  trapGetc := 0x20#8
  trapOut := 0x21#8
  trapPuts := 0x22#8
  trapIn := 0x23#8
  trapPutsp := 0x24#8
  trapHalt := 0x25#8
  inPrompt :=
    [0x45#8, 0x6E#8, 0x74#8, 0x65#8, 0x72#8, 0x20#8] ++
    [0x63#8, 0x68#8, 0x61#8, 0x72#8, 0x61#8, 0x63#8, 0x74#8, 0x65#8, 0x72#8, 0x3A#8, 0x20#8]
  haltMessage := [0x48#8, 0x41#8, 0x4C#8, 0x54#8]
  putsRender := fun w => if w ≤ 0x007F#16 then [w.extractLsb' 0 8] else Config.putsRenderOpen w

/-! The parameters the machine reads. -/

def Config.memWords : Nat := parameters.memWords
def Config.linkReg : Reg := parameters.linkReg
def Config.pcReset : Word := parameters.pcReset
def Config.condReset : Word := parameters.condReset
def Config.gprReset : Word := parameters.gprReset
def Config.memReset : Word := parameters.memReset
def Config.flPos : Word := parameters.flPos
def Config.flZro : Word := parameters.flZro
def Config.flNeg : Word := parameters.flNeg
def Config.kbsr : Word := parameters.kbsr
def Config.kbdr : Word := parameters.kbdr
def Config.kbsrReady : Word := parameters.kbsrReady
def Config.vecGetc : BitVec 8 := parameters.trapGetc
def Config.vecOut : BitVec 8 := parameters.trapOut
def Config.vecPuts : BitVec 8 := parameters.trapPuts
def Config.vecIn : BitVec 8 := parameters.trapIn
def Config.vecPutsp : BitVec 8 := parameters.trapPutsp
def Config.vecHalt : BitVec 8 := parameters.trapHalt
def Config.inPrompt : List Byte := parameters.inPrompt
def Config.haltMessage : List Byte := parameters.haltMessage
def Config.putsRender (w : Word) : List Byte := parameters.putsRender w

end Sys2Proof
end

