-- ==== Sys2Proof/WellFormed.lean ====
section
/-!
DEFINITION. Which terms are the ones a decoder answers with: the term named by the MOST SPECIAL row of the opcode table
that has its word (spec/30_encoding.md R125: the alias rows "name a special case" of their parent). Every term, well-formed
or not, has an encoding and a meaning; the fields' widths are in their types.
-/

namespace Sys2Proof

/-- The six vectors with a service (R122, R221). -/
def isServiceVector (v : BitVec 8) : Bool :=
  v == Config.vecGetc || v == Config.vecOut || v == Config.vecPuts ||
  v == Config.vecIn || v == Config.vecPutsp || v == Config.vecHalt

/-- A well-formed term is named by the most special row with its word: a `br` has some condition bit (else it is `nop`),
a `jmp` has a base other than R7 (else it is `ret`), a `trapUnknown` has no service's vector, and no term is named by the
parent row TRAP, all of whose words belong to its seven alias rows (log entry 19). -/
def Instr.wf : Instr → Bool
  | .br nzp _ => nzp != 0#3
  | .jmp base => base != .r7
  | .trap _ => false
  | .trapUnknown v => !isServiceVector v
  | .addReg _ _ _ | .addImm _ _ _ | .andReg _ _ _ | .andImm _ _ _ | .not _ _ => true
  | .ld _ _ | .ldi _ _ | .ldr _ _ _ | .lea _ _ | .st _ _ | .sti _ _ | .str _ _ _ => true
  | .jsr _ | .jsrr _ | .ret | .nop _ | .rti | .res => true
  | .trapGetc | .trapOut | .trapPuts | .trapIn | .trapPutsp | .trapHalt => true

end Sys2Proof
end

