-- ==== Sys2Proof/Decode.lean ====
section
/-!
DEFINITION. The decoder, total on the 65,536 words (spec/30_encoding.md R121), and after it the encoder, both written from
the field positions of R105, the opcode map of R104 and the formats R106 to R116. The unit of instruction memory is the
16-bit word (R102), so the decoder reads one word; no word is rejected.
-/

namespace Sys2Proof

/-! ### Fields (R105) -/

/-- op = instr[15:12] (R103). -/
def opcodeBits (w : Word) : BitVec 4 := w.extractLsb' 12 4

/-- instr[11:9]: DR, SR or nzp. -/
def field11to9 (w : Word) : BitVec 3 := w.extractLsb' 9 3

/-- instr[8:6]: SR1 or BaseR. -/
def field8to6 (w : Word) : BitVec 3 := w.extractLsb' 6 3

/-- instr[2:0]: SR2. -/
def field2to0 (w : Word) : BitVec 3 := w.extractLsb' 0 3

/-- imm-flag = instr[5]. -/
def immFlag (w : Word) : Bool := w.getLsbD 5

/-- long-flag = instr[11]. -/
def longFlag (w : Word) : Bool := w.getLsbD 11

/-- imm5 = instr[4:0]. -/
def imm5Bits (w : Word) : BitVec 5 := w.extractLsb' 0 5

/-- offset6 = instr[5:0]. -/
def offset6Bits (w : Word) : BitVec 6 := w.extractLsb' 0 6

/-- pcOffset9 = instr[8:0]. -/
def pcOffset9Bits (w : Word) : BitVec 9 := w.extractLsb' 0 9

/-- pcOffset11 = instr[10:0]. -/
def pcOffset11Bits (w : Word) : BitVec 11 := w.extractLsb' 0 11

/-- trapvect8 = instr[7:0]. -/
def trapvect8Bits (w : Word) : BitVec 8 := w.extractLsb' 0 8

/-- The register a 3-bit field names: the field's value is the register's number (R21, R118). -/
def regOfBits (b : BitVec 3) : Reg :=
  match b with
  | 0#3 => .r0
  | 1#3 => .r1
  | 2#3 => .r2
  | 3#3 => .r3
  | 4#3 => .r4
  | 5#3 => .r5
  | 6#3 => .r6
  | 7#3 => .r7

/-- A register's number as a 3-bit field (R21). -/
def regToBits : Reg → BitVec 3
  | .r0 => 0#3
  | .r1 => 1#3
  | .r2 => 2#3
  | .r3 => 3#3
  | .r4 => 4#3
  | .r5 => 5#3
  | .r6 => 6#3
  | .r7 => 7#3

/-! ### The opcode map (R104) -/

/-- The sixteen opcodes: "an exhaustive match over a 16-variant tagged enumeration of opcodes" (R104). -/
inductive Opcode where
  | br | add | ld | st | jsr | and | ldr | str | rti | not | ldi | sti | jmp | res | lea | trap
deriving DecidableEq, Repr

/-- The opcode a 4-bit code names (R104); the last arm is 0b1111, the one code left (`opcodeOfBits_trap` in Laws). -/
def opcodeOfBits (b : BitVec 4) : Opcode :=
  match b with
  | 0b0000#4 => .br
  | 0b0001#4 => .add
  | 0b0010#4 => .ld
  | 0b0011#4 => .st
  | 0b0100#4 => .jsr
  | 0b0101#4 => .and
  | 0b0110#4 => .ldr
  | 0b0111#4 => .str
  | 0b1000#4 => .rti
  | 0b1001#4 => .not
  | 0b1010#4 => .ldi
  | 0b1011#4 => .sti
  | 0b1100#4 => .jmp
  | 0b1101#4 => .res
  | 0b1110#4 => .lea
  | _ => .trap

/-! ### The decoder -/

/-- The instruction of a word by the nineteen primary rows (R125, R126): the opcode selects, and for opcodes 1, 5 and 4
bit 5 or bit 11 (R121). Bits that no field of the format names are not looked at (R120, log entry 4). -/
def decodePrimary (w : Word) : Instr :=
  match opcodeOfBits (opcodeBits w) with
  | .br => .br (field11to9 w) (pcOffset9Bits w)
  | .add =>
    if immFlag w then .addImm (regOfBits (field11to9 w)) (regOfBits (field8to6 w)) (imm5Bits w)
    else .addReg (regOfBits (field11to9 w)) (regOfBits (field8to6 w)) (regOfBits (field2to0 w))
  | .ld => .ld (regOfBits (field11to9 w)) (pcOffset9Bits w)
  | .st => .st (regOfBits (field11to9 w)) (pcOffset9Bits w)
  | .jsr => if longFlag w then .jsr (pcOffset11Bits w) else .jsrr (regOfBits (field8to6 w))
  | .and =>
    if immFlag w then .andImm (regOfBits (field11to9 w)) (regOfBits (field8to6 w)) (imm5Bits w)
    else .andReg (regOfBits (field11to9 w)) (regOfBits (field8to6 w)) (regOfBits (field2to0 w))
  | .ldr => .ldr (regOfBits (field11to9 w)) (regOfBits (field8to6 w)) (offset6Bits w)
  | .str => .str (regOfBits (field11to9 w)) (regOfBits (field8to6 w)) (offset6Bits w)
  | .rti => .rti
  | .not => .not (regOfBits (field11to9 w)) (regOfBits (field8to6 w))
  | .ldi => .ldi (regOfBits (field11to9 w)) (pcOffset9Bits w)
  | .sti => .sti (regOfBits (field11to9 w)) (pcOffset9Bits w)
  | .jmp => .jmp (regOfBits (field8to6 w))
  | .res => .res
  | .lea => .lea (regOfBits (field11to9 w)) (pcOffset9Bits w)
  | .trap => .trap (trapvect8Bits w)

/-- The name of TRAP with a given vector (R122, R125, R221). -/
def nameOfVector (v : BitVec 8) : Instr :=
  if v = Config.vecGetc then .trapGetc
  else if v = Config.vecOut then .trapOut
  else if v = Config.vecPuts then .trapPuts
  else if v = Config.vecIn then .trapIn
  else if v = Config.vecPutsp then .trapPutsp
  else if v = Config.vecHalt then .trapHalt
  else .trapUnknown v

/-- The most special name of an instruction: the alias rows "name a special case" of a primary row (R125, R161 (a), R163,
R221). -/
def Instr.canonical : Instr → Instr
  | .br nzp off => if nzp = 0#3 then .nop off else .br nzp off
  | .jmp base => if base = .r7 then .ret else .jmp base
  | .trap v => nameOfVector v
  | .trapUnknown v => nameOfVector v
  | .addReg dr sr1 sr2 => .addReg dr sr1 sr2
  | .addImm dr sr1 imm => .addImm dr sr1 imm
  | .andReg dr sr1 sr2 => .andReg dr sr1 sr2
  | .andImm dr sr1 imm => .andImm dr sr1 imm
  | .not dr sr1 => .not dr sr1
  | .ld dr off => .ld dr off
  | .ldi dr off => .ldi dr off
  | .ldr dr base off => .ldr dr base off
  | .lea dr off => .lea dr off
  | .st sr off => .st sr off
  | .sti sr off => .sti sr off
  | .str sr base off => .str sr base off
  | .jsr off => .jsr off
  | .jsrr base => .jsrr base
  | .ret => .ret
  | .nop off => .nop off
  | .rti => .rti
  | .res => .res
  | .trapGetc => .trapGetc
  | .trapOut => .trapOut
  | .trapPuts => .trapPuts
  | .trapIn => .trapIn
  | .trapPutsp => .trapPutsp
  | .trapHalt => .trapHalt

/-- The decoder: the primary row finds the instruction, the alias rows name the special case of it (R125). -/
def decode (w : Word) : Instr := (decodePrimary w).canonical

/-- The host's entry: the instruction this decoder reads from an instruction whose first word is `w`. Every instruction is
one 16-bit word (R102), so bit i of `w` is bit i of the word (R7); a number with more bits than the word is no instruction. -/
def decodeTableWord (nbits w : Nat) : Option Instr :=
  if nbits ≤ 16 ∧ w < 2 ^ nbits then some (decode (BitVec.ofNat 16 w)) else none

/-! ### The encoder

The bits that no field names are filled as R131 writes them: 00 in bits 4:3 of the register forms, 111111 in bits 5:0 of
NOT, zeros elsewhere. -/

/-- Format OP3R (R106). -/
def encodeOp3r (op : BitVec 4) (dr sr1 sr2 : Reg) : Word :=
  op ++ regToBits dr ++ regToBits sr1 ++ 0b0#1 ++ 0b00#2 ++ regToBits sr2

/-- Format OP3I (R107). -/
def encodeOp3i (op : BitVec 4) (dr sr1 : Reg) (imm : BitVec 5) : Word :=
  op ++ regToBits dr ++ regToBits sr1 ++ 0b1#1 ++ imm

/-- Format PC9 (R110). -/
def encodePc9 (op : BitVec 4) (r : Reg) (off : BitVec 9) : Word :=
  op ++ regToBits r ++ off

/-- Format BASE6 (R111). -/
def encodeBase6 (op : BitVec 4) (r base : Reg) (off : BitVec 6) : Word :=
  op ++ regToBits r ++ regToBits base ++ off

/-- Format BR (R109). -/
def encodeBr (nzp : BitVec 3) (off : BitVec 9) : Word :=
  0b0000#4 ++ nzp ++ off

/-- Format JMP (R112). -/
def encodeJmp (base : Reg) : Word :=
  0b1100#4 ++ 0b000#3 ++ regToBits base ++ 0b000000#6

/-- Format TRAP (R115). -/
def encodeTrap (v : BitVec 8) : Word :=
  0b1111#4 ++ 0b0000#4 ++ v

/-- The word of an instruction (R104, R106 to R116, R131). -/
def encode : Instr → Word
  | .br nzp off => encodeBr nzp off
  | .nop off => encodeBr 0b000#3 off
  | .addReg dr sr1 sr2 => encodeOp3r 0b0001#4 dr sr1 sr2
  | .addImm dr sr1 imm => encodeOp3i 0b0001#4 dr sr1 imm
  | .andReg dr sr1 sr2 => encodeOp3r 0b0101#4 dr sr1 sr2
  | .andImm dr sr1 imm => encodeOp3i 0b0101#4 dr sr1 imm
  | .not dr sr1 => 0b1001#4 ++ regToBits dr ++ regToBits sr1 ++ 0b111111#6
  | .ld dr off => encodePc9 0b0010#4 dr off
  | .ldi dr off => encodePc9 0b1010#4 dr off
  | .lea dr off => encodePc9 0b1110#4 dr off
  | .st sr off => encodePc9 0b0011#4 sr off
  | .sti sr off => encodePc9 0b1011#4 sr off
  | .ldr dr base off => encodeBase6 0b0110#4 dr base off
  | .str sr base off => encodeBase6 0b0111#4 sr base off
  | .jmp base => encodeJmp base
  | .ret => encodeJmp .r7
  | .jsr off => 0b0100#4 ++ 0b1#1 ++ off
  | .jsrr base => 0b0100#4 ++ 0b0#1 ++ 0b00#2 ++ regToBits base ++ 0b000000#6
  | .rti => 0b1000#4 ++ 0b000000000000#12
  | .res => 0b1101#4 ++ 0b000000000000#12
  | .trap v => encodeTrap v
  | .trapGetc => encodeTrap Config.vecGetc
  | .trapOut => encodeTrap Config.vecOut
  | .trapPuts => encodeTrap Config.vecPuts
  | .trapIn => encodeTrap Config.vecIn
  | .trapPutsp => encodeTrap Config.vecPutsp
  | .trapHalt => encodeTrap Config.vecHalt
  | .trapUnknown v => encodeTrap v

/-! ### The decode rows (R125, R126) and the ignored bits (R120) -/

/-- A row of R126: a word `w` belongs to it when `w &&& mask = pattern` (R125). -/
structure EncRow where
  mask : Word
  pattern : Word
deriving DecidableEq, Repr

/-- A word belongs to a row (R125). -/
def EncRow.has (r : EncRow) (w : Word) : Bool := w &&& r.mask == r.pattern

/-- The primary row of an instruction, with the mask and match of R126; an alias has its parent's row. -/
def Instr.row : Instr → EncRow
  | .br _ _ | .nop _ => ⟨0xF000#16, 0x0000#16⟩
  | .addReg _ _ _ => ⟨0xF020#16, 0x1000#16⟩
  | .addImm _ _ _ => ⟨0xF020#16, 0x1020#16⟩
  | .ld _ _ => ⟨0xF000#16, 0x2000#16⟩
  | .st _ _ => ⟨0xF000#16, 0x3000#16⟩
  | .jsrr _ => ⟨0xF800#16, 0x4000#16⟩
  | .jsr _ => ⟨0xF800#16, 0x4800#16⟩
  | .andReg _ _ _ => ⟨0xF020#16, 0x5000#16⟩
  | .andImm _ _ _ => ⟨0xF020#16, 0x5020#16⟩
  | .ldr _ _ _ => ⟨0xF000#16, 0x6000#16⟩
  | .str _ _ _ => ⟨0xF000#16, 0x7000#16⟩
  | .rti => ⟨0xF000#16, 0x8000#16⟩
  | .not _ _ => ⟨0xF000#16, 0x9000#16⟩
  | .ldi _ _ => ⟨0xF000#16, 0xA000#16⟩
  | .sti _ _ => ⟨0xF000#16, 0xB000#16⟩
  | .jmp _ | .ret => ⟨0xF000#16, 0xC000#16⟩
  | .res => ⟨0xF000#16, 0xD000#16⟩
  | .lea _ _ => ⟨0xF000#16, 0xE000#16⟩
  | .trap _ | .trapUnknown _ => ⟨0xF000#16, 0xF000#16⟩
  | .trapGetc | .trapOut | .trapPuts | .trapIn | .trapPutsp | .trapHalt => ⟨0xF000#16, 0xF000#16⟩

/-- The nineteen primary rows of R126, in its order. -/
def primaryRows : List EncRow :=
  [⟨0xF000#16, 0x0000#16⟩, ⟨0xF020#16, 0x1000#16⟩, ⟨0xF020#16, 0x1020#16⟩, ⟨0xF000#16, 0x2000#16⟩,
   ⟨0xF000#16, 0x3000#16⟩, ⟨0xF800#16, 0x4000#16⟩, ⟨0xF800#16, 0x4800#16⟩, ⟨0xF020#16, 0x5000#16⟩] ++
  [⟨0xF020#16, 0x5020#16⟩, ⟨0xF000#16, 0x6000#16⟩, ⟨0xF000#16, 0x7000#16⟩, ⟨0xF000#16, 0x8000#16⟩,
   ⟨0xF000#16, 0x9000#16⟩, ⟨0xF000#16, 0xA000#16⟩, ⟨0xF000#16, 0xB000#16⟩, ⟨0xF000#16, 0xC000#16⟩] ++
  [⟨0xF000#16, 0xD000#16⟩, ⟨0xF000#16, 0xE000#16⟩, ⟨0xF000#16, 0xF000#16⟩]

/-- The bits of an instruction's word that no field of its format names: the `x` of R106, R108, R112, R114, R115 and R116
(R120). -/
def Instr.ignoredBits : Instr → Word
  | .addReg _ _ _ | .andReg _ _ _ => 0x0018#16
  | .not _ _ => 0x003F#16
  | .jmp _ | .ret => 0x0E3F#16
  | .jsrr _ => 0x063F#16
  | .trap _ | .trapUnknown _ => 0x0F00#16
  | .trapGetc | .trapOut | .trapPuts | .trapIn | .trapPutsp | .trapHalt => 0x0F00#16
  | .rti | .res => 0x0FFF#16
  | .br _ _ | .nop _ | .addImm _ _ _ | .andImm _ _ _ => 0x0000#16
  | .ld _ _ | .ldi _ _ | .lea _ _ | .st _ _ | .sti _ _ | .ldr _ _ _ | .str _ _ _ | .jsr _ => 0x0000#16

end Sys2Proof
end

