-- ==== Sys2Proof/Machine/Bits.lean ====
section
/-!
DEFINITION. The extensions and byte splits the machine uses (spec/00_scope.md R9, R10; spec/20_memory.md R70), and what PUTSP
writes for a word.
-/

namespace Sys2Proof.Machine

/-- Sign extension of an n-bit field to a word (R9). The machine uses n = 5, 6, 9 and 11 (R117). -/
def sext {n : Nat} (f : BitVec n) : Word := f.signExtend 16

/-- The source's sign_extend(x, n) (R9): the low n bits of x, extended; the identity for n >= 16; refused for n = 0 (log
entry 17). -/
def signExtendLow (n : Nat) (x : Word) : Option Word :=
  if n = 0 then none else some (sext (x.setWidth n))

/-- zext_8 (R10): a byte as a word, the upper eight bits zero. -/
def zext8 (b : Byte) : Word := b.setWidth 16

/-- w[7:0] (R7). -/
def lowByte (w : Word) : Byte := w.extractLsb' 0 8

/-- w[15:8] (R7). -/
def highByte (w : Word) : Byte := w.extractLsb' 8 8

/-- The word of two bytes of an image, big-endian: b0 * 256 + b1 (R70 (a), R320). -/
def wordOfBytes (b0 b1 : Byte) : Word := b0 ++ b1

/-- What PUTSP writes for a word: its low byte, then its high byte unless that is zero (R226, log entry 11). -/
def putspRender (w : Word) : List Byte :=
  if highByte w ≠ 0#8 then [lowByte w, highByte w] else [lowByte w]

end Sys2Proof.Machine
end

