-- ==== Sys2Proof/Machine/State.lean ====
section
/-!
DEFINITION. The machine's state as plain data (spec/10_state.md), its value at the start (R48), and the reasons a step can
stop. What is the core's by the spec stands first; the host's side of the channels (R40 to R45, which the spec leaves to the
environment) and the mark of an instruction in progress (R231) stand after it, so that one deterministic step can run it all
(log entries 6 and 7).
-/

namespace Sys2Proof.Machine

/-- The eight general registers, 16 bits each (R20, R21). None is hardwired (R22). -/
structure RegFile where
  r0 : Word
  r1 : Word
  r2 : Word
  r3 : Word
  r4 : Word
  r5 : Word
  r6 : Word
  r7 : Word
deriving DecidableEq, Repr

/-- The run status (R36). -/
inductive RunStatus where
  /-- From the start; the only status in which a step exists (R101). -/
  | running
  /-- After trap HALT: the only normal end (R36). -/
  | halted
  /-- After an IllegalOpcodeFault (R271). -/
  | faultIllegalOpcode
  /-- After an IOFault (R272). -/
  | faultIo
deriving DecidableEq, Repr

/-- The two faults of the running core (R270). -/
inductive FaultKind where
  /-- IllegalOpcodeFault (R271). -/
  | illegalOpcode
  /-- IOFault (R272). -/
  | io
deriving DecidableEq, Repr

/-- One memory cell that holds something else than MEM_RESET: its address and its word (R37). The spec's smallest
addressable unit is the 16-bit word (R60, R70), so a cell holds a word, not a byte (log entry 1). -/
abbrev Cell := Nat × Word

/-- The 65,536 words of memory (R37): the cells that do not hold what an unlisted one reads as, in rising order of
address. -/
abbrev Memory := List Cell

/-- A trap service that has begun and has not ended (R229, R231): PC and R7 hold the address after the TRAP, and what the
service wrote so far is in the output. The model's own (log entries 7 and 16). -/
inductive Pending where
  /-- GETC waits for a byte. -/
  | getc
  /-- IN has written its prompt and waits for a byte. -/
  | inp
  /-- PUTS has gone round a memory that holds no zero word, and goes on. -/
  | puts
  /-- PUTSP has gone round a memory that holds no zero word, and goes on. -/
  | putsp
deriving DecidableEq, Repr

/-- The state of the machine and, after `pending`, of the host as far as the core can meet it. -/
structure State where
  /-- R0 to R7 (R20, R21). -/
  regs : RegFile
  /-- PC (R25): between steps the address of the next instruction. -/
  pc : Word
  /-- COND (R29): a word of the register file; 0x0001, 0x0002 or 0x0004. -/
  cond : Word
  /-- The running flag (R35). -/
  running : Bool
  /-- The run status (R36). -/
  status : RunStatus
  /-- M[0x0000] to M[0xFFFF] (R37), KBSR and KBDR among them (R38). -/
  mem : Memory
  /-- The instruction in progress, if the last step did not end one (R231); the model's own. -/
  pending : Option Pending
  /-- The host input queue, head first (R41). -/
  inq : List Byte
  /-- The host output, oldest byte first (R44). -/
  out : List Byte
  /-- What the host will do to the input before each of the coming steps (R41: it appends "at any time"), as far as that is
  written out; after it `oracleTurn` says what comes. Any list: a statement holds for all of them (R40). The model's own. -/
  schedule : List HostTurn
  /-- What comes when the schedule is used up: some n, the input oracle's turns from the n-th on, without end (R40, log entry
  24); none, nothing arrives any more. The model's own. -/
  oracleTurn : Option Nat
  /-- Whether the host answers a blocking read on an empty queue with `Fail` (true) or not at all (false) (R43, D6). The
  model's own. -/
  inputFails : Bool
  /-- How many more output bytes the host takes before it answers a write with `Fail`; none: it never fails (R45, D7). The
  model's own. -/
  writesLeft : Option Nat
deriving DecidableEq, Repr

/-- Why a step does not exist (R101): the run is over. Safe: the state that stopped is a state of the machine, and shows
why in `status`. -/
inductive Fault where
  /-- Raised by `step` in a state whose run trap HALT ended (R36, R282). Safe. -/
  | halted
  /-- Raised by `step` in a state whose run an IllegalOpcodeFault ended (R271, R282). Safe. -/
  | illegalOpcode
  /-- Raised by `step` in a state whose run an IOFault ended (R272, R282). Safe. -/
  | ioFault
deriving DecidableEq, Repr

/-- The model refuses no instruction: every word decodes (R121) and every instruction has its meaning. -/
inductive Refusal where
  /-- An instruction without a meaning in `exec`. Raised by no arm. Safe. -/
  | notModelled (mnemonic : String)
deriving DecidableEq, Repr

/-- The state when the machine is created, with no image loaded (R48, R310, R311). The host's side: no byte has arrived or
will, no operation fails (log entries 6 and 24; the spec leaves these open). -/
def State.reset : State where
  regs := ⟨Config.gprReset, Config.gprReset, Config.gprReset, Config.gprReset,
    Config.gprReset, Config.gprReset, Config.gprReset, Config.gprReset⟩
  pc := Config.pcReset
  cond := Config.condReset
  running := true
  status := .running
  mem := []
  pending := none
  inq := []
  out := []
  schedule := []
  oracleTurn := none
  inputFails := false
  writesLeft := none

end Sys2Proof.Machine
end

