-- ==== Sys2Proof/Machine/Ops.lean ====
section
/-!
DEFINITION. The named operations over registers, memory and the host channels: the pseudocode primitives of
spec/00_scope.md R12, the bus of spec/20_memory.md R61 to R64, the host operations of spec/10_state.md R41 to R45, and
raising a fault (spec/60_exceptions.md R271, R272, R278).
-/

namespace Sys2Proof.Machine

/-! ### Registers -/

/-- Read a general register (R12, R21). -/
def RegFile.get (f : RegFile) : Reg → Word
  | .r0 => f.r0
  | .r1 => f.r1
  | .r2 => f.r2
  | .r3 => f.r3
  | .r4 => f.r4
  | .r5 => f.r5
  | .r6 => f.r6
  | .r7 => f.r7

/-- Write a general register; none is hardwired (R12, R22). -/
def RegFile.set (f : RegFile) (r : Reg) (v : Word) : RegFile :=
  match r with
  | .r0 => { f with r0 := v }
  | .r1 => { f with r1 := v }
  | .r2 => { f with r2 := v }
  | .r3 => { f with r3 := v }
  | .r4 => { f with r4 := v }
  | .r5 => { f with r5 := v }
  | .r6 => { f with r6 := v }
  | .r7 => { f with r7 := v }

/-- R[r] (R12). -/
def State.reg (s : State) (r : Reg) : Word := s.regs.get r

/-- R[r] <- v (R12). -/
def State.setReg (s : State) (r : Reg) (v : Word) : State := { s with regs := s.regs.set r v }

/-- pc <- v (R12). -/
def State.setPc (s : State) (v : Word) : State := { s with pc := v }

/-- COND <- v (R12). -/
def State.setCond (s : State) (v : Word) : State := { s with cond := v }

/-- Replace the memory. -/
def State.setMem (s : State) (m : Memory) : State := { s with mem := m }

/-- status <- v (R12). -/
def State.setStatus (s : State) (v : RunStatus) : State := { s with status := v }

/-- Set the instruction in progress (R231). -/
def State.setPending (s : State) (p : Option Pending) : State := { s with pending := p }

/-- Replace the host input queue (R41). -/
def State.setInq (s : State) (q : List Byte) : State := { s with inq := q }

/-- Replace the host output and how much more of it the host takes (R44, R45). -/
def State.setOut (s : State) (o : List Byte) (left : Option Nat) : State := { s with out := o, writesLeft := left }

/-- running <- false; status <- HALTED, as trap HALT does (R227). -/
def State.halt (s : State) : State := { s with running := false, status := .halted }

/-! ### Memory: cells, direct access -/

/-- The first listed word at an address; an unlisted cell holds MEM_RESET (R37, R83). -/
def Memory.lookup : Memory → Nat → Word
  | [], _ => Config.memReset
  | c :: rest, k => if c.1 = k then c.2 else lookup rest k

/-- M[a] (R12): a direct read with no side effect. -/
def Memory.read (m : Memory) (a : Word) : Word := Memory.lookup m a.toNat

/-- List a cell at its place in the rising order of addresses. -/
def Memory.insert (k : Nat) (v : Word) : Memory → Memory
  | [] => [(k, v)]
  | c :: rest => if k < c.1 then (k, v) :: c :: rest else c :: insert k v rest

/-- M[a] <- v (R12), keeping the canonical form: a cell that gets what an unlisted one reads as is no longer listed. -/
def Memory.write (m : Memory) (a : Word) (v : Word) : Memory :=
  let m' : Memory := List.filter (fun c : Cell => c.1 != a.toNat) m
  if v = Config.memReset then m' else Memory.insert a.toNat v m'

/-- The canonical form from address `lo` on: rising addresses of the address space, no word that an unlisted cell reads
as. -/
def Memory.wfFrom (lo : Nat) : Memory → Bool
  | [] => true
  | c :: rest => decide (lo ≤ c.1) && decide (c.1 < Config.memWords) && (c.2 != Config.memReset) && wfFrom (c.1 + 1) rest

/-- The canonical form of a memory: equal memories are equal lists. -/
def Memory.wf (m : Memory) : Bool := Memory.wfFrom 0 m

/-! ### The host channels -/

/-- The host's turn before a step (R41): it appends the bytes that arrive, and says how it answers a blocking read on an
empty queue. When the schedule is used up the oracle's turns follow, if the state has them coming (R40); else nothing
arrives and the last answer holds (log entries 6, 8 and 24). -/
def hostTurn (s : State) : State :=
  match s.schedule, s.oracleTurn with
  | t :: rest, _ => { s with inq := s.inq ++ t.arrive, schedule := rest, inputFails := t.inputFails }
  | [], some n =>
    { s with
      inq := s.inq ++ (Config.hostInput n).arrive, inputFails := (Config.hostInput n).inputFails, oracleTurn := some (n + 1) }
  | [], none => s

/-- HostPoll() (R42): takes the head byte if there is one; never waits, never fails. -/
def hostPoll (s : State) : Option Byte × State :=
  match s.inq with
  | [] => (none, s)
  | b :: rest => (some b, s.setInq rest)

/-- The answers of HostRead() (R43). -/
inductive ReadAnswer where
  | byte (b : Byte)
  | fail
  /-- The host has neither appended a byte nor reported a failure: the core is suspended. -/
  | noAnswer
deriving DecidableEq, Repr

/-- HostRead() (R43): the head byte if there is one, else the host's failure or no answer yet. -/
def hostRead (s : State) : ReadAnswer × State :=
  match s.inq with
  | b :: rest => (.byte b, s.setInq rest)
  | [] => if s.inputFails then (.fail, s) else (.noAnswer, s)

/-- The answers of HostWrite(b) (R45). -/
inductive WriteAnswer where
  | ok
  | fail
deriving DecidableEq, Repr

/-- HostWrite(b) (R45): appends the byte at once (R46), or fails and appends nothing. -/
def hostWrite (b : Byte) (s : State) : WriteAnswer × State :=
  match s.writesLeft with
  | none => (.ok, s.setOut (s.out ++ [b]) none)
  | some 0 => (.fail, s)
  | some (n + 1) => (.ok, s.setOut (s.out ++ [b]) (some n))

/-- HostWrite of each byte in order, ending at the first that fails (R230). -/
def hostWriteAll : List Byte → State → WriteAnswer × State
  | [], s => (.ok, s)
  | b :: rest, s =>
    match hostWrite b s with
    | (.ok, t) => hostWriteAll rest t
    | (.fail, t) => (.fail, t)

/-! ### The bus -/

/-- The keyboard poll of R62 and R63: a byte taken goes to M[KBDR] with READY in M[KBSR]; none clears M[KBSR]. -/
def keyboardPoll (s : State) : State :=
  match hostPoll s with
  | (some b, t) => t.setMem ((t.mem.write Config.kbsr Config.kbsrReady).write Config.kbdr (zext8 b))
  | (none, t) => t.setMem (t.mem.write Config.kbsr 0x0000#16)

/-- MemRead(a, 1) (R61): polls first when the address is KBSR; every other read is pure (R73). -/
def memRead (a : Word) (s : State) : Word × State :=
  let t := if a = Config.kbsr then keyboardPoll s else s
  (t.mem.read a, t)

/-- MemWrite(a, 1, v) (R64): no side effect at any address, never fails. -/
def memWrite (a v : Word) (s : State) : State := s.setMem (s.mem.write a v)

/-! ### Fetch -/

/-- The fetch of R100: `instr <- mem_read(PC); PC <- PC + 1`. -/
def fetch (s : State) : Word × State :=
  let r := memRead s.pc s
  (r.1, r.2.setPc (r.2.pc + 1#16))

/-- R7 <- PC, R7 being LINK_REG: the link write of JSR, JSRR and TRAP (R23, R169); no flag update (R32). -/
def link (s : State) : State := s.setReg Config.linkReg s.pc

/-! ### Faults -/

/-- Raise a fault (R271, R272, R278): it saves nothing, switches nothing and vectors nowhere; the status shows it and
everything the instruction did before stands (log entry 5). There is no return from a fault and no return instruction
(R280), so none stands beside this. -/
def takeFault (k : FaultKind) (s : State) : State :=
  match k with
  | .illegalOpcode => s.setStatus .faultIllegalOpcode
  | .io => s.setStatus .faultIo

/-- Why no step exists in a state (R101, R36): the run is over; none while it runs. -/
def stopReason (s : State) : Option Fault :=
  match s.status with
  | .running => if s.running then none else some .halted
  | .halted => some .halted
  | .faultIllegalOpcode => some .illegalOpcode
  | .faultIo => some .ioFault

/-- Write bytes to the host and go on, or raise IOFault at the first failing write (R230). -/
def writeThen (bytes : List Byte) (k : State → State) (s : State) : State :=
  match hostWriteAll bytes s with
  | (.ok, t) => k t
  | (.fail, t) => takeFault .io t

end Sys2Proof.Machine
end

