-- ==== Sys2Proof/Machine/Flags.lean ====
section
/-!
DEFINITION. The condition register: SetCC, and the branch test (spec/10_state.md R29 to R32, spec/41_control.md R160).
-/

namespace Sys2Proof.Machine

/-- The COND value that classifies a word (R31): ZRO for zero, NEG when bit 15 is 1, otherwise POS. -/
def condOf (v : Word) : Word :=
  if v = 0x0000#16 then Config.flZro
  else if v.getLsbD 15 then Config.flNeg
  else Config.flPos

/-- SetCC(i) (R31): COND from the value now in R[i]. -/
def setCC (r : Reg) (s : State) : State := s.setCond (condOf (s.reg r))

/-- R[DR] <- v; SetCC(DR): how every flag-setting instruction ends (R32). -/
def writeResult (r : Reg) (v : Word) (s : State) : State := setCC r (s.setReg r v)

/-- The branch test of R160: `(nzp & COND) != 0`. -/
def branchTaken (nzp : BitVec 3) (s : State) : Bool := (nzp.setWidth 16 &&& s.cond) != 0x0000#16

end Sys2Proof.Machine
end

