-- ==== Sys2Proof/Machine/Operands.lean ====
section
/-!
DEFINITION. The addresses and operands instructions form (spec/30_encoding.md R117, R118). `s.pc` is the PC after the
fetch has added 1 (spec/00_scope.md R14).
-/

namespace Sys2Proof.Machine

/-- The PC-relative address of pcOffset9 or pcOffset11: (PC + sext(off)) mod 65536 (R117). -/
def pcRelative {n : Nat} (off : BitVec n) (s : State) : Word := s.pc + sext off

/-- The base-plus-offset address (R183, R203): (R[BaseR] + sext_6(offset6)) mod 65536. -/
def baseOffset (base : Reg) (off : BitVec 6) (s : State) : Word := s.reg base + sext off

/-- The pointer of LDI and STI: a bus read at the PC-relative address (R182, R202). -/
def readPointer (off : BitVec 9) (s : State) : Word × State := memRead (pcRelative off s) s

end Sys2Proof.Machine
end

