-- ==== Sys2Proof/Machine/Alu.lean ====
section
/-!
DEFINITION. ADD, AND, NOT (spec/40_alu.md). Sources are read before the destination is written (R140).
-/

namespace Sys2Proof.Machine

/-- R141: R[DR] <- (R[SR1] + R[SR2]) mod 65536; SetCC(DR). -/
def execAddReg (dr sr1 sr2 : Reg) (s : State) : Host.Outcome State Fault Refusal :=
  .next (writeResult dr (s.reg sr1 + s.reg sr2) s)

/-- R142: R[DR] <- (R[SR1] + sext_5(imm5)) mod 65536; SetCC(DR). -/
def execAddImm (dr sr1 : Reg) (imm : BitVec 5) (s : State) : Host.Outcome State Fault Refusal :=
  .next (writeResult dr (s.reg sr1 + sext imm) s)

/-- R143: R[DR] <- R[SR1] & R[SR2]; SetCC(DR). -/
def execAndReg (dr sr1 sr2 : Reg) (s : State) : Host.Outcome State Fault Refusal :=
  .next (writeResult dr (s.reg sr1 &&& s.reg sr2) s)

/-- R144: R[DR] <- R[SR1] & sext_5(imm5); SetCC(DR). -/
def execAndImm (dr sr1 : Reg) (imm : BitVec 5) (s : State) : Host.Outcome State Fault Refusal :=
  .next (writeResult dr (s.reg sr1 &&& sext imm) s)

/-- R145: R[DR] <- ~R[SR1]; SetCC(DR). -/
def execNot (dr sr1 : Reg) (s : State) : Host.Outcome State Fault Refusal :=
  .next (writeResult dr (~~~(s.reg sr1)) s)

end Sys2Proof.Machine
end

