-- ==== Sys2Proof/Machine/Control.lean ====
section
/-!
DEFINITION. BR, NOP, JMP, RET, JSR, JSRR (spec/41_control.md).
-/

namespace Sys2Proof.Machine

/-- R160: if (nzp & COND) != 0 then PC <- PC + pcOffset9. -/
def execBr (nzp : BitVec 3) (off : BitVec 9) (s : State) : Host.Outcome State Fault Refusal :=
  .next (if branchTaken nzp s then s.setPc (pcRelative off s) else s)

/-- R161 (a): nzp = 000 is never taken, whatever the offset. -/
def execNop (_off : BitVec 9) (s : State) : Host.Outcome State Fault Refusal :=
  .next s

/-- R162: PC <- R[BaseR]. -/
def execJmp (base : Reg) (s : State) : Host.Outcome State Fault Refusal :=
  .next (s.setPc (s.reg base))

/-- R163: PC <- R[7]. -/
def execRet (s : State) : Host.Outcome State Fault Refusal :=
  .next (s.setPc (s.reg .r7))

/-- R164: R[7] <- PC; PC <- PC + pcOffset11. -/
def execJsr (off : BitVec 11) (s : State) : Host.Outcome State Fault Refusal :=
  let t := link s
  .next (t.setPc (pcRelative off t))

/-- R165, R166: R[7] <- PC; then PC <- R[BaseR], read after the write of R7 (log entry 3). -/
def execJsrr (base : Reg) (s : State) : Host.Outcome State Fault Refusal :=
  let t := link s
  .next (t.setPc (t.reg base))

end Sys2Proof.Machine
end

