-- ==== Sys2Proof/Machine/Load.lean ====
section
/-!
DEFINITION. LD, LDI, LDR, LEA (spec/42_load.md).
-/

namespace Sys2Proof.Machine

/-- R[DR] <- MemRead(ea, 1); SetCC(DR): the end of LD, LDI and LDR (R180). -/
def loadFrom (dr : Reg) (ea : Word) (s : State) : State :=
  let r := memRead ea s
  writeResult dr r.1 r.2

/-- R181: the word at PC + pcOffset9. -/
def execLd (dr : Reg) (off : BitVec 9) (s : State) : Host.Outcome State Fault Refusal :=
  .next (loadFrom dr (pcRelative off s) s)

/-- R182: the word the pointer at PC + pcOffset9 points to; the pointer is read first. -/
def execLdi (dr : Reg) (off : BitVec 9) (s : State) : Host.Outcome State Fault Refusal :=
  let p := readPointer off s
  .next (loadFrom dr p.1 p.2)

/-- R183: the word at R[BaseR] + offset6. -/
def execLdr (dr base : Reg) (off : BitVec 6) (s : State) : Host.Outcome State Fault Refusal :=
  .next (loadFrom dr (baseOffset base off s) s)

/-- R184: the address PC + pcOffset9 itself; no memory access, and COND is set from it. -/
def execLea (dr : Reg) (off : BitVec 9) (s : State) : Host.Outcome State Fault Refusal :=
  .next (writeResult dr (pcRelative off s) s)

end Sys2Proof.Machine
end

