-- ==== Sys2Proof/Machine/Reserved.lean ====
section
/-!
DEFINITION. RTI and RES (spec/45_reserved.md): each raises IllegalOpcodeFault and does nothing else.
-/

namespace Sys2Proof.Machine

/-- R260. -/
def execRti (s : State) : Host.Outcome State Fault Refusal :=
  .next (takeFault .illegalOpcode s)

/-- R261. -/
def execRes (s : State) : Host.Outcome State Fault Refusal :=
  .next (takeFault .illegalOpcode s)

end Sys2Proof.Machine
end

