-- ==== Sys2Proof/Machine/Store.lean ====
section
/-!
DEFINITION. ST, STI, STR (spec/43_store.md).
-/

namespace Sys2Proof.Machine

/-- R201: MemWrite(PC + pcOffset9, R[SR]). -/
def execSt (sr : Reg) (off : BitVec 9) (s : State) : Host.Outcome State Fault Refusal :=
  .next (memWrite (pcRelative off s) (s.reg sr) s)

/-- R202: MemWrite(MemRead(PC + pcOffset9), R[SR]); the pointer is read from the bus. -/
def execSti (sr : Reg) (off : BitVec 9) (s : State) : Host.Outcome State Fault Refusal :=
  let p := readPointer off s
  .next (memWrite p.1 (p.2.reg sr) p.2)

/-- R203: MemWrite(R[BaseR] + offset6, R[SR]). -/
def execStr (sr base : Reg) (off : BitVec 6) (s : State) : Host.Outcome State Fault Refusal :=
  .next (memWrite (baseOffset base off s) (s.reg sr) s)

end Sys2Proof.Machine
end

