-- ==== Sys2Proof/Machine/Trap.lean ====
section
/-!
DEFINITION. TRAP and the six services (spec/44_trap.md). A service begins with no instruction in progress; one that cannot
end leaves its mark in `pending`, and `resume` takes it up at the next step (R229, R231; log entries 7 and 16).
-/

namespace Sys2Proof.Machine

/-! ### Input: GETC and IN -/

/-- R0 <- zext_8(b); SetCC(0) (R222, R225). -/
def loadInput (b : Byte) (s : State) : State := writeResult .r0 (zext8 b) s

/-- A blocking read (R43): on a byte the service goes on, on a failure it raises IOFault (R230), with no answer it waits
(R231). -/
def readThen (wait : Pending) (k : Byte → State → State) (s : State) : State :=
  match hostRead (s.setPending none) with
  | (.byte b, t) => k b t
  | (.fail, t) => takeFault .io t
  | (.noAnswer, t) => t.setPending (some wait)

/-- GETC after the link write (R222): no echo. -/
def serveGetc (s : State) : State := readThen .getc loadInput s

/-- IN after its prompt (R225): the byte is echoed, then loaded. -/
def awaitIn (s : State) : State := readThen .inp (fun b t => writeThen [b] (loadInput b) t) s

/-- IN after the link write (R225). -/
def serveIn (s : State) : State := writeThen Config.inPrompt awaitIn (s.setPending none)

/-! ### Output: OUT, PUTS, PUTSP, HALT -/

/-- OUT after the link write (R223): R0[7:0]. -/
def serveOut (s : State) : State := writeThen [lowByte (s.reg .r0)] id (s.setPending none)

/-- The words of a string from address `a` on, at most `n` of them, up to the first zero word, and whether that word was
met. Direct reads of the array, the address advancing modulo 2^16 (R229, log entry 10). -/
def scanString (m : Memory) : Nat → Word → List Word × Bool
  | 0, _ => ([], false)
  | n + 1, a =>
    if m.read a = 0x0000#16 then ([], true)
    else
      let r := scanString m n (a + 1#16)
      (m.read a :: r.1, r.2)

/-- PUTS and PUTSP (R224, R226): write the words of the string at R0 in order. Where no cell of memory is zero the service
goes round for ever (R229): one turn of the 65,536 cells is written, the address is R0 again, and the service stays in
progress (log entry 16). -/
def serveString (again : Pending) (render : Word → List Byte) (s : State) : State :=
  let r := scanString s.mem Config.memWords (s.reg .r0)
  writeThen (r.1.flatMap render) (fun t => if r.2 then t else t.setPending (some again)) (s.setPending none)

/-- PUTS after the link write (R224). -/
def servePuts (s : State) : State := serveString .puts Config.putsRender s

/-- PUTSP after the link write (R226). -/
def servePutsp (s : State) : State := serveString .putsp putspRender s

/-- HALT after the link write (R227): the message, then running <- false and status <- HALTED. -/
def serveHalt (s : State) : State := writeThen Config.haltMessage State.halt (s.setPending none)

/-! ### The dispatch on trapvect8 -/

/-- The service of a vector (R220, R221); any other vector does nothing more (R228, log entry 13). -/
def trapService (v : BitVec 8) (s : State) : State :=
  if v = Config.vecGetc then serveGetc s
  else if v = Config.vecOut then serveOut s
  else if v = Config.vecPuts then servePuts s
  else if v = Config.vecIn then serveIn s
  else if v = Config.vecPutsp then servePutsp s
  else if v = Config.vecHalt then serveHalt s
  else s

/-- R220: R[7] <- PC, then the service the vector selects. -/
def execTrap (v : BitVec 8) (s : State) : Host.Outcome State Fault Refusal :=
  .next (trapService v (link s))

/-- R222. -/
def execTrapGetc (s : State) : Host.Outcome State Fault Refusal :=
  .next (serveGetc (link s))

/-- R223. -/
def execTrapOut (s : State) : Host.Outcome State Fault Refusal :=
  .next (serveOut (link s))

/-- R224. -/
def execTrapPuts (s : State) : Host.Outcome State Fault Refusal :=
  .next (servePuts (link s))

/-- R225. -/
def execTrapIn (s : State) : Host.Outcome State Fault Refusal :=
  .next (serveIn (link s))

/-- R226. -/
def execTrapPutsp (s : State) : Host.Outcome State Fault Refusal :=
  .next (servePutsp (link s))

/-- R227. -/
def execTrapHalt (s : State) : Host.Outcome State Fault Refusal :=
  .next (serveHalt (link s))

/-- R228: R[7] <- PC and nothing more. -/
def execTrapUnknown (_v : BitVec 8) (s : State) : Host.Outcome State Fault Refusal :=
  .next (link s)

/-- One more step of an instruction in progress (R229, R231). -/
def resume (p : Pending) (s : State) : State :=
  match p with
  | .getc => serveGetc s
  | .inp => awaitIn s
  | .puts => servePuts s
  | .putsp => servePutsp s

end Sys2Proof.Machine
end

