-- ==== Sys2Proof/Machine/Step.lean ====
section
/-!
DEFINITION. One step (spec/30_encoding.md R100, R101), and the host's way to place an instruction for it.
-/

namespace Sys2Proof.Machine

/-- One step. A step exists only while the run goes on (R101). The host has its turn on the input channel (R41); then an
instruction in progress goes on (R231), or the next one is fetched, PC advanced, and it is executed (R100). -/
def step (s : State) : Host.Outcome State Fault Refusal :=
  match stopReason s with
  | some f => .fault f
  | none =>
    match (hostTurn s).pending with
    | some p => .next (resume p (hostTurn s))
    | none => exec (decode (fetch (hostTurn s)).1) (fetch (hostTurn s)).2

/-- The state with an instruction word where the next step fetches: at PC, with the run going on and no instruction in
progress. A fetch from KBSR takes its word from the poll (R69), so in a state whose PC is KBSR the word is put at PC_RESET
and PC is set there (log entry 21). -/
def State.withFetchWord (s : State) (nbits w : Nat) : State :=
  let pc := if s.pc = Config.kbsr then Config.pcReset else s.pc
  { s with
    running := true, status := .running, pending := none, pc := pc,
    mem := s.mem.write pc (BitVec.ofNat 16 (w % 2 ^ nbits)) }

end Sys2Proof.Machine
end

