-- ==== Sys2Proof/Machine/Loader.lean ====
section
/-!
DEFINITION. The image loader, interface LOAD (spec/10_state.md R47, spec/70_reset_and_hazards.md R320 to R324): what the
host does to memory before the first step. `step` never calls it.
-/

namespace Sys2Proof.Machine

/-- Why an image does not load (R273, R323). -/
inductive LoadError where
  /-- The file is missing or unreadable. -/
  | unreadable
  /-- Fewer than two bytes: no origin (log entry 14). -/
  | noOrigin
deriving DecidableEq, Repr

/-- The words of an image from address `a` on (R321): it stops at the end of the file, with a single byte left, or once
0xFFFF has been written. The writes are direct. -/
def loadWords (m : Memory) (a : Nat) : List Byte → Memory
  | b0 :: b1 :: rest =>
    if a < Config.memWords then loadWords (m.write (BitVec.ofNat 16 a) (wordOfBytes b0 b1)) (a + 1) rest else m
  | _ => m

/-- Load one image (R320, R321, R323): the big-endian origin, then big-endian words. No register is touched. -/
def loadImage (f : List Byte) (s : State) : Except LoadError State :=
  match f with
  | b0 :: b1 :: rest => .ok (s.setMem (loadWords s.mem (wordOfBytes b0 b1).toNat rest))
  | _ => .error .noOrigin

/-- Load a file: none is a missing or unreadable one (R273, R323), which the host finds out (log entry 14). -/
def loadFile (f : Option (List Byte)) (s : State) : Except LoadError State :=
  match f with
  | none => .error .unreadable
  | some bytes => loadImage bytes s

/-- Load files in sequence, later ones over earlier ones (R322); after a LoadError the machine does not run (R323). -/
def loadImages : List (Option (List Byte)) → State → Except LoadError State
  | [], s => .ok s
  | f :: rest, s =>
    match loadFile f s with
    | .ok t => loadImages rest t
    | .error e => .error e

end Sys2Proof.Machine
end

