-- ==== Sys2Proof/Safety.lean ====
section
/-!
DEFINITION. The words claims are stated in: what a legal state is, what counts as a good end, what the spec's bus read does
in terms of a before and an after, and the frames "this part of the state is as before".
-/

namespace Sys2Proof.Machine

/-! ### The run -/

/-- A step exists (R101). -/
abbrev Runs (s : State) : Prop := s.status = .running ∧ s.running = true

/-- The only good end of a run (R36, R282): a faulted run has not ended normally, and a waiting one has not ended. -/
abbrev GoodEnd (s : State) : Prop := s.status = .halted

/-- The invariant of the machine: the memory is in canonical form; COND has one of its three values (R29, R30); the running
flag is false exactly when the run was halted (R36); an instruction is in progress only while the run goes on (R231). -/
abbrev State.Inv (s : State) : Prop :=
  s.mem.wf = true ∧
  (s.cond = 0x0001#16 ∨ s.cond = 0x0002#16 ∨ s.cond = 0x0004#16) ∧
  (s.running = false ↔ s.status = .halted) ∧
  (s.pending ≠ none → s.status = .running)

/-- The states a run can pass through from `s`. -/
inductive Reaches (s : State) : State → Prop where
  | here : Reaches s s
  | step {t u : State} : Reaches s t → step t = .next u → Reaches s u

/-! ### Frames -/

/-- Every word of memory reads as before. -/
abbrev SameMem (s t : State) : Prop := ∀ a : Word, t.mem.read a = s.mem.read a

/-- Every word of memory but the one at `a` reads as before. -/
abbrev SameMemBut (a : Word) (s t : State) : Prop := ∀ b : Word, b ≠ a → t.mem.read b = s.mem.read b

/-- Every general register is as before. -/
abbrev SameRegs (s t : State) : Prop := ∀ q : Reg, t.reg q = s.reg q

/-- Every general register but `r` is as before. -/
abbrev SameRegsBut (r : Reg) (s t : State) : Prop := ∀ q : Reg, q ≠ r → t.reg q = s.reg q

/-- The running flag, the status and the mark of an instruction in progress are as before. -/
abbrev SameRun (s t : State) : Prop := t.running = s.running ∧ t.status = s.status ∧ t.pending = s.pending

/-- The host's input side is as before. -/
abbrev SameInput (s t : State) : Prop :=
  t.inq = s.inq ∧ t.schedule = s.schedule ∧ t.oracleTurn = s.oracleTurn ∧ t.inputFails = s.inputFails

/-- The host's output side is as before. -/
abbrev SameOutput (s t : State) : Prop := t.out = s.out ∧ t.writesLeft = s.writesLeft

/-- Both host channels are as before. -/
abbrev SameHost (s t : State) : Prop := SameInput s t ∧ SameOutput s t

/-! ### What the spec says of values -/

/-- COND classifies a word (R31, R148): ZRO exactly for 0x0000, NEG for 0x8000 to 0xFFFF, POS for 0x0001 to 0x7FFF. -/
abbrev Classifies (cond v : Word) : Prop :=
  (v.toNat = 0 → cond = 0x0002#16) ∧
  (0x8000 ≤ v.toNat → cond = 0x0004#16) ∧
  (1 ≤ v.toNat ∧ v.toNat ≤ 0x7FFF → cond = 0x0001#16)

/-- A bus read of `a` in `s` answers `v` and leaves `t` (R61 to R63, R73): at KBSR the poll takes the head byte into KBDR
and answers 0x8000, or finds none and answers 0x0000, leaving KBDR; everywhere else the read is pure. Nothing but those two
cells and the input queue changes. -/
abbrev BusRead (a : Word) (s : State) (v : Word) (t : State) : Prop :=
  (a ≠ 0xFE00#16 → v = s.mem.read a ∧ SameMem s t ∧ t.inq = s.inq) ∧
  (a = 0xFE00#16 → ∀ b rest, s.inq = b :: rest →
    v = 0x8000#16 ∧ t.inq = rest ∧
    t.mem.read 0xFE00#16 = 0x8000#16 ∧ t.mem.read 0xFE02#16 = b.setWidth 16 ∧
    ∀ c : Word, c ≠ 0xFE00#16 → c ≠ 0xFE02#16 → t.mem.read c = s.mem.read c) ∧
  (a = 0xFE00#16 → s.inq = [] →
    v = 0x0000#16 ∧ t.inq = [] ∧ t.mem.read 0xFE00#16 = 0x0000#16 ∧ SameMemBut 0xFE00#16 s t) ∧
  SameRegs s t ∧ t.pc = s.pc ∧ t.cond = s.cond ∧ SameRun s t ∧
  t.schedule = s.schedule ∧ t.oracleTurn = s.oracleTurn ∧ t.inputFails = s.inputFails ∧ SameOutput s t

/-- The host will take `n` more output bytes (R45). -/
abbrev HostTakes (s : State) (n : Nat) : Prop := ∀ m, s.writesLeft = some m → n ≤ m

/-- The output after the host took the bytes (R44, R45). -/
abbrev Wrote (bytes : List Byte) (s t : State) : Prop :=
  t.out = s.out ++ bytes ∧ t.writesLeft = s.writesLeft.map (fun m => m - bytes.length)

/-- The output after the host took the first `m` bytes and failed the next (R45, R230). -/
abbrev WroteUntilFail (bytes : List Byte) (m : Nat) (s t : State) : Prop :=
  t.out = s.out ++ bytes.take m ∧ t.writesLeft = some 0

/-- The string at an address (R224, R226): the non-zero words `ws`, one a cell, the address advancing modulo 2^16, and then
a zero word. -/
abbrev StringAt (m : Memory) (a : Word) (ws : List Word) : Prop :=
  ws.length < 65536 ∧
  (∀ i : Nat, ∀ h : i < ws.length, m.read (a + BitVec.ofNat 16 i) = ws[i] ∧ ws[i] ≠ 0x0000#16) ∧
  m.read (a + BitVec.ofNat 16 ws.length) = 0x0000#16

end Sys2Proof.Machine
end

