-- ==== Sys2Proof/Certificates/Slice0/Obligations.lean ====
section
/-!
DEFINITION. The statements for the provers, from the numbered rules of spec/. Addresses, masks and values are written as
the spec writes them; the vocabulary is that of Sys2Proof/Safety.lean.
-/

open Sys2Proof Sys2Proof.Machine

/-! ### Encoding -/

/-- R121, R125, R126, R131: the decoder reads back the word of every well-formed instruction, with every operand at every
value its field has. -/
def Obligations.DecodeOfEncode : Prop :=
  ∀ i : Instr, i.wf = true → decode (encode i) = i

/-- R105, R120, R121: the decoder answers with a well-formed instruction, and encoding it gives the word back in every bit
that a field of the format names. -/
def Obligations.EncodeOfDecode : Prop :=
  ∀ w : Word, (decode w).wf = true ∧
    encode (decode w) &&& ~~~(decode w).ignoredBits = w &&& ~~~(decode w).ignoredBits

/-- R120: a bit no field of its format names has no effect, whatever it is; the bits are those of the rule's list. -/
def Obligations.IgnoredBitsHaveNoEffect : Prop :=
  (∀ w m : Word, decode (w ^^^ (m &&& (decode w).ignoredBits)) = decode w) ∧
  (∀ w : Word,
    (w &&& 0xF020#16 = 0x1000#16 ∨ w &&& 0xF020#16 = 0x5000#16 → (decode w).ignoredBits = 0x0018#16) ∧
    (w &&& 0xF000#16 = 0x9000#16 → (decode w).ignoredBits = 0x003F#16) ∧
    (w &&& 0xF000#16 = 0xC000#16 → (decode w).ignoredBits = 0x0E3F#16) ∧
    (w &&& 0xF800#16 = 0x4000#16 → (decode w).ignoredBits = 0x063F#16) ∧
    (w &&& 0xF000#16 = 0xF000#16 → (decode w).ignoredBits = 0x0F00#16) ∧
    (w &&& 0xF000#16 = 0x8000#16 ∨ w &&& 0xF000#16 = 0xD000#16 → (decode w).ignoredBits = 0x0FFF#16))

/-- R103, R121, R126: the opcode is the word shifted right by twelve; every word belongs to exactly one of the nineteen
primary rows, the row of the instruction the decoder reads from it. -/
def Obligations.RowsPartitionTheWords : Prop :=
  primaryRows.length = 19 ∧
  ∀ w : Word, (opcodeBits w).toNat = (w >>> 12).toNat ∧
    (decode w).row ∈ primaryRows ∧ (decode w).row.has w = true ∧
    ∀ r ∈ primaryRows, r.has w = true → r = (decode w).row

/-- R126, R131 and the source's examples (spec/95_test_vectors.md S1 to S7): a few words, written out from the encodings,
decode to the instructions they stand for. -/
def Obligations.DecodesTheSpecsWords : Prop :=
  decode 0x1023#16 = .addImm .r0 .r0 3#5 ∧
  decode 0x1042#16 = .addReg .r0 .r1 .r2 ∧
  decode 0x507F#16 = .andImm .r0 .r1 31#5 ∧
  decode 0x927F#16 = .not .r1 .r1 ∧
  decode 0x0403#16 = .br 0b010#3 3#9 ∧
  decode 0x4802#16 = .jsr 2#11 ∧
  decode 0x4080#16 = .jsrr .r2 ∧
  decode 0xC080#16 = .jmp .r2 ∧
  decode 0xC1C0#16 = .ret ∧
  decode 0xA200#16 = .ldi .r1 0#9 ∧
  decode 0x6442#16 = .ldr .r2 .r1 2#6 ∧
  decode 0xE001#16 = .lea .r0 1#9 ∧
  decode 0xB201#16 = .sti .r1 1#9 ∧
  decode 0x7E7F#16 = .str .r7 .r1 63#6 ∧
  decode 0x8FFF#16 = .rti ∧
  decode 0xD123#16 = .res ∧
  decode 0xF125#16 = .trapHalt ∧
  decode 0xF026#16 = .trapUnknown 0x26#8 ∧
  decode 0x0000#16 = .nop 0#9

/-- R125, R161, R163, R220: a parent row's instruction does what its alias does, so the name the decoder gives a word never
matters. (A `trapUnknown` term with a service's vector is not an alias of anything: R228 is about the other vectors.) -/
def Obligations.AliasRunsAsItsParent : Prop :=
  ∀ (i : Instr) (s : State), (∀ v, i = .trapUnknown v → isServiceVector v = false) → exec i s = exec i.canonical s

/-- R9: sign extension. Refused for N = 0; the formula for 1 <= N <= 15; the identity for N >= 16; idempotent; it preserves
the value of an N-bit signed integer. And it is what the machine applies to its immediate fields. -/
def Obligations.SignExtensionLaws : Prop :=
  (∀ x : Word, signExtendLow 0 x = none) ∧
  (∀ (n : Nat) (x y : Word), 1 ≤ n → n ≤ 15 → signExtendLow n x = some y →
    (x.toNat % 2 ^ n < 2 ^ (n - 1) → y.toNat = x.toNat % 2 ^ n) ∧
    (2 ^ (n - 1) ≤ x.toNat % 2 ^ n → y.toNat = x.toNat % 2 ^ n + (65536 - 2 ^ n)) ∧
    y.toInt = (x.setWidth n).toInt) ∧
  (∀ (n : Nat) (x : Word), 16 ≤ n → signExtendLow n x = some x) ∧
  (∀ (n : Nat) (x : Word), 1 ≤ n → ∃ y, signExtendLow n x = some y ∧ signExtendLow n y = some y) ∧
  (∀ (n : Nat) (f : BitVec n), 1 ≤ n → n ≤ 15 → signExtendLow n (f.setWidth 16) = some (sext f))

/-! ### State, reset, invariant -/

/-- R48, R311: every piece of the core's state at the start. -/
def Obligations.ResetState : Prop :=
  (∀ r : Reg, State.reset.reg r = 0x0000#16) ∧
  State.reset.pc = 0x3000#16 ∧
  State.reset.cond = 0x0002#16 ∧
  State.reset.running = true ∧
  State.reset.status = .running ∧
  (∀ a : Word, State.reset.mem.read a = 0x0000#16) ∧
  State.reset.out = []

/-- The invariant holds at the start. -/
def Obligations.ResetMeetsTheInvariant : Prop := State.reset.Inv

/-- R30, R36: every step keeps the invariant: the memory's canonical form, COND one of its three values, the running flag
false exactly when halted, an instruction in progress only while the run goes on. -/
def Obligations.StepKeepsTheInvariant : Prop :=
  ∀ s t : State, s.Inv → step s = .next t → t.Inv

/-- R30, R36, R322: whatever images are loaded and whatever the host does, every state a run passes through meets the
invariant. The host's fields of State are the model's (log entries 6 and 24), as is the load from outside (log entry 21). -/
def Obligations.LoadedRunsKeepTheInvariant : Prop :=
  ∀ (images : List (Option (List Byte))) (s t : State) (inq : List Byte) (schedule : List HostTurn)
    (turn : Option Nat) (fails : Bool) (left : Option Nat),
    loadImages images State.reset = .ok s →
    Reaches { s with inq := inq, schedule := schedule, oracleTurn := turn, inputFails := fails, writesLeft := left } t →
    t.Inv

/-! ### The step -/

/-- R100, R26: with no instruction in progress a step runs the instruction decoded from the word at PC, in the state with
PC advanced; a fetch from KBSR runs the word the poll leaves there (R69). -/
def Obligations.StepRunsTheDecodedInstruction : Prop :=
  ∀ s : State, Runs s → s.pending = none →
    (s.pc ≠ 0xFE00#16 →
      step s = exec (decode (s.mem.read s.pc)) ((hostTurn s).setPc (s.pc + 1#16))) ∧
    (s.pc = 0xFE00#16 →
      ∃ t w, BusRead 0xFE00#16 (hostTurn s) w t ∧ step s = exec (decode w) (t.setPc 0xFE01#16))

/-- R231, log entry 7: with an instruction in progress a step goes on with it and fetches nothing. -/
def Obligations.StepGoesOnWithTheServiceInProgress : Prop :=
  ∀ (s : State) (p : Pending), Runs s → s.pending = some p → step s = .next (resume p (hostTurn s))

/-- R101, R282: a step exists in every state that runs, and in no other; it is never refused. The fault's name says how the
run ended (log entry 5). -/
def Obligations.StepExistsExactlyWhileRunning : Prop :=
  ∀ s : State,
    (Runs s → ∃ t, step s = .next t) ∧
    (s.status = .running → s.running = false → step s = .fault .halted) ∧
    (s.status = .halted → step s = .fault .halted) ∧
    (s.status = .faultIllegalOpcode → step s = .fault .illegalOpcode) ∧
    (s.status = .faultIo → step s = .fault .ioFault)

/-- R35, R36, R227: only trap HALT clears the running flag or makes the status HALTED. -/
def Obligations.OnlyHaltEndsTheRunNormally : Prop :=
  ∀ s t : State, step s = .next t → (t.running = false ∨ t.status = .halted) →
    s.pending = none ∧ decode (fetch (hostTurn s)).1 = .trapHalt ∧ t.running = false ∧ t.status = .halted

/-- R271, R272, R277: IllegalOpcodeFault is raised by RTI and RES and by nothing else; IOFault by a trap service and by
nothing else; each is raised from the running state only. -/
def Obligations.FaultSources : Prop :=
  ∀ s t : State, step s = .next t →
    (t.status = .faultIllegalOpcode →
      s.pending = none ∧
        (decode (fetch (hostTurn s)).1 = .rti ∨ decode (fetch (hostTurn s)).1 = .res)) ∧
    (t.status = .faultIo →
      s.pending ≠ none ∨
        decode (fetch (hostTurn s)).1 ∈ [Instr.trapGetc, .trapOut, .trapPuts, .trapIn, .trapPutsp, .trapHalt])

/-- R44: the output only grows, at its end. -/
def Obligations.OutputOnlyGrows : Prop :=
  ∀ s t : State, step s = .next t → ∃ bytes : List Byte, t.out = s.out ++ bytes

/-- R41, R42, R43: the host appends at the tail, and a step takes at most one byte, the head. What the host appends is its
written-out plan and then the input oracle's, for ever, if the state has it coming (R40, log entries 6 and 24). -/
def Obligations.StepTakesAtMostOneInputByte : Prop :=
  ∀ s t : State, step s = .next t →
    ∃ arrived : List Byte, (∀ h rest, s.schedule = h :: rest → arrived = h.arrive) ∧
      (∀ n, s.schedule = [] → s.oracleTurn = some n → arrived = (Config.hostInput n).arrive) ∧
      (s.schedule = [] → s.oracleTurn = none → arrived = []) ∧
      (t.inq = s.inq ++ arrived ∨ ∃ b, s.inq ++ arrived = b :: t.inq)

/-! ### Who writes what (R24, R28, R31, R32) -/

/-- R31: SetCC sets COND from the value now in the register: ZRO for zero, NEG when the high bit is 1, otherwise POS, exactly
one bit set; it changes nothing else. -/
def Obligations.SetCcClassifiesTheRegister : Prop :=
  ∀ (r : Reg) (s : State), Classifies (setCC r s).cond (s.reg r) ∧
    ((setCC r s).cond = 0x0001#16 ∨ (setCC r s).cond = 0x0002#16 ∨ (setCC r s).cond = 0x0004#16) ∧
    SameRegs s (setCC r s) ∧ (setCC r s).pc = s.pc ∧ SameMem s (setCC r s) ∧ SameRun s (setCC r s) ∧
    SameHost s (setCC r s)

/-- R32: COND is as before, or the instruction is one of ADD, AND, NOT, LD, LDI, LDR, LEA, GETC, IN and COND classifies the
register it has just written. -/
def Obligations.OnlyTheListedInstructionsWriteCond : Prop :=
  ∀ (i : Instr) (s t : State), exec i s = .next t →
    t.cond = s.cond ∨
    ∃ r : Reg, Classifies t.cond (t.reg r) ∧
      ((∃ a b, i = .addReg r a b) ∨ (∃ a m, i = .addImm r a m) ∨ (∃ a b, i = .andReg r a b) ∨
       (∃ a m, i = .andImm r a m) ∨ (∃ a, i = .not r a) ∨ (∃ o, i = .ld r o) ∨ (∃ o, i = .ldi r o) ∨
       (∃ b o, i = .ldr r b o) ∨ (∃ o, i = .lea r o) ∨
       (r = .r0 ∧ i.canonical ∈ [Instr.trapGetc, .trapIn]))

/-- R32: only BR reads COND: every other instruction does the same whatever COND holds. -/
def Obligations.OnlyBranchReadsCond : Prop :=
  ∀ (i : Instr) (s : State) (c : Word), (∀ nzp off, i ≠ .br nzp off) →
    ∃ t u, exec i s = .next t ∧ exec i (s.setCond c) = .next u ∧ u.setCond 0#16 = t.setCond 0#16 ∧
      (u.cond = t.cond ∨ (u.cond = c ∧ t.cond = s.cond))

/-- R24: which general registers an instruction may write: R[DR] for the instructions with a DR, R7 for JSR, JSRR and every
TRAP, R0 beside it for GETC and IN, and no other. -/
def Obligations.RegisterWriters : Prop :=
  ∀ (i : Instr) (s t : State) (q : Reg), exec i s = .next t → t.reg q ≠ s.reg q →
    (∃ a b, i = .addReg q a b) ∨ (∃ a m, i = .addImm q a m) ∨ (∃ a b, i = .andReg q a b) ∨
    (∃ a m, i = .andImm q a m) ∨ (∃ a, i = .not q a) ∨ (∃ o, i = .ld q o) ∨ (∃ o, i = .ldi q o) ∨
    (∃ b o, i = .ldr q b o) ∨ (∃ o, i = .lea q o) ∨
    (q = .r7 ∧ ((∃ o, i = .jsr o) ∨ (∃ b, i = .jsrr b) ∨ i.row = ⟨0xF000#16, 0xF000#16⟩)) ∨
    (q = .r0 ∧ i.canonical ∈ [Instr.trapGetc, .trapIn])

/-- R28: beside the increment of the fetch, PC is written only by BR, JMP, RET, JSR and JSRR. -/
def Obligations.PcWriters : Prop :=
  ∀ (i : Instr) (s t : State), exec i s = .next t → t.pc ≠ s.pc →
    (∃ n o, i = .br n o) ∨ (∃ b, i = .jmp b) ∨ i = .ret ∨ (∃ o, i = .jsr o) ∨ (∃ b, i = .jsrr b)

/-- R73, R140, R170, R180, R200, R232: an instruction that is no store changes no cell but, through a load's bus read, KBSR
and KBDR; one that is neither a load nor a store changes no cell at all. -/
def Obligations.MemoryWriters : Prop :=
  ∀ (i : Instr) (s t : State) (a : Word), exec i s = .next t → t.mem.read a ≠ s.mem.read a →
    (∃ r o, i = .st r o) ∨ (∃ r o, i = .sti r o) ∨ (∃ r b o, i = .str r b o) ∨
    ((a = 0xFE00#16 ∨ a = 0xFE02#16) ∧
      ((∃ r o, i = .ld r o) ∨ (∃ r o, i = .ldi r o) ∨ (∃ r b o, i = .ldr r b o)))

/-! ### The bus -/

/-- R61, R62, R63: the bus read, with the keyboard poll at KBSR; nothing else changes. -/
def Obligations.BusReadPolls : Prop :=
  ∀ (a : Word) (s : State), BusRead a s (memRead a s).1 (memRead a s).2

/-- R64: a bus write stores the value in its cell and does nothing else, at any address. -/
def Obligations.BusWriteStores : Prop :=
  ∀ (a v : Word) (s : State), (memWrite a v s).mem.read a = v ∧ SameMemBut a s (memWrite a v s) ∧
    SameRegs s (memWrite a v s) ∧ (memWrite a v s).pc = s.pc ∧ (memWrite a v s).cond = s.cond ∧
    SameRun s (memWrite a v s) ∧ SameHost s (memWrite a v s)

/-- R82: write-then-read holds everywhere but at KBSR, where the read polls and returns 0x8000 or 0x0000. -/
def Obligations.WriteThenRead : Prop :=
  (∀ (a v : Word) (s : State), a ≠ 0xFE00#16 → (memRead a (memWrite a v s)).1 = v) ∧
  (∀ (v : Word) (s : State), (memRead 0xFE00#16 (memWrite 0xFE00#16 v s)).1 = 0x8000#16 ∨
    (memRead 0xFE00#16 (memWrite 0xFE00#16 v s)).1 = 0x0000#16)

/-- R80, R204: a store is seen by the very next fetch from its address; so a program that stores into its next instruction
runs what it stored. -/
def Obligations.StoreIsSeenByTheNextFetch : Prop :=
  (∀ (v : Word) (s : State), Runs s → s.pending = none → s.pc ≠ 0xFE00#16 →
    step (memWrite s.pc v s) = exec (decode v) ((hostTurn (memWrite s.pc v s)).setPc (s.pc + 1#16))) ∧
  ∀ (sr : Reg) (s t : State), exec (.st sr 0#9) s = .next t → Runs t → t.pending = none → s.pc ≠ 0xFE00#16 →
    step t = exec (decode (s.reg sr)) ((hostTurn t).setPc (s.pc + 1#16))

/-! ### ADD, AND, NOT (spec/40_alu.md) -/

/-- R141: ADD, register form: its words, its result, COND, and all else unchanged. -/
def Obligations.AddRegister : Prop :=
  (∀ w : Word, w &&& 0xF020#16 = 0x1000#16 →
    decode w = .addReg (regOfBits (w.extractLsb' 9 3)) (regOfBits (w.extractLsb' 6 3)) (regOfBits (w.extractLsb' 0 3))) ∧
  ∀ (dr sr1 sr2 : Reg) (s : State), ∃ t, exec (.addReg dr sr1 sr2) s = .next t ∧
    (t.reg dr).toNat = ((s.reg sr1).toNat + (s.reg sr2).toNat) % 65536 ∧ Classifies t.cond (t.reg dr) ∧
    SameRegsBut dr s t ∧ t.pc = s.pc ∧ SameMem s t ∧ SameRun s t ∧ SameHost s t

/-- R142: ADD, immediate form. -/
def Obligations.AddImmediate : Prop :=
  (∀ w : Word, w &&& 0xF020#16 = 0x1020#16 →
    decode w = .addImm (regOfBits (w.extractLsb' 9 3)) (regOfBits (w.extractLsb' 6 3)) (w.extractLsb' 0 5)) ∧
  ∀ (dr sr1 : Reg) (imm : BitVec 5) (s : State), ∃ t, exec (.addImm dr sr1 imm) s = .next t ∧
    (t.reg dr).toNat = ((s.reg sr1).toNat + (sext imm).toNat) % 65536 ∧ Classifies t.cond (t.reg dr) ∧
    SameRegsBut dr s t ∧ t.pc = s.pc ∧ SameMem s t ∧ SameRun s t ∧ SameHost s t

/-- R143: AND, register form. -/
def Obligations.AndRegister : Prop :=
  (∀ w : Word, w &&& 0xF020#16 = 0x5000#16 →
    decode w = .andReg (regOfBits (w.extractLsb' 9 3)) (regOfBits (w.extractLsb' 6 3)) (regOfBits (w.extractLsb' 0 3))) ∧
  ∀ (dr sr1 sr2 : Reg) (s : State), ∃ t, exec (.andReg dr sr1 sr2) s = .next t ∧
    (∀ i < 16, (t.reg dr).getLsbD i = ((s.reg sr1).getLsbD i && (s.reg sr2).getLsbD i)) ∧
    Classifies t.cond (t.reg dr) ∧
    SameRegsBut dr s t ∧ t.pc = s.pc ∧ SameMem s t ∧ SameRun s t ∧ SameHost s t

/-- R144: AND, immediate form; the immediate is sign-extended before the AND. -/
def Obligations.AndImmediate : Prop :=
  (∀ w : Word, w &&& 0xF020#16 = 0x5020#16 →
    decode w = .andImm (regOfBits (w.extractLsb' 9 3)) (regOfBits (w.extractLsb' 6 3)) (w.extractLsb' 0 5)) ∧
  ∀ (dr sr1 : Reg) (imm : BitVec 5) (s : State), ∃ t, exec (.andImm dr sr1 imm) s = .next t ∧
    (∀ i < 16, (t.reg dr).getLsbD i = ((s.reg sr1).getLsbD i && (sext imm).getLsbD i)) ∧
    Classifies t.cond (t.reg dr) ∧
    SameRegsBut dr s t ∧ t.pc = s.pc ∧ SameMem s t ∧ SameRun s t ∧ SameHost s t

/-- R145: NOT, the complement within 16 bits: 65535 - a. -/
def Obligations.NotComplements : Prop :=
  (∀ w : Word, w &&& 0xF000#16 = 0x9000#16 →
    decode w = .not (regOfBits (w.extractLsb' 9 3)) (regOfBits (w.extractLsb' 6 3))) ∧
  ∀ (dr sr1 : Reg) (s : State), ∃ t, exec (.not dr sr1) s = .next t ∧
    (t.reg dr).toNat = 65535 - (s.reg sr1).toNat ∧ Classifies t.cond (t.reg dr) ∧
    SameRegsBut dr s t ∧ t.pc = s.pc ∧ SameMem s t ∧ SameRun s t ∧ SameHost s t

/-! ### BR, JMP, RET, JSR, JSRR (spec/41_control.md) -/

/-- R160, R161 (a): BR and its case NOP: taken exactly when nzp and COND have a bit in common; never with nzp = 000; nothing
else changes. -/
def Obligations.BranchOnCond : Prop :=
  (∀ w : Word, w &&& 0xF000#16 = 0x0000#16 →
    (w.extractLsb' 9 3 ≠ 0#3 → decode w = .br (w.extractLsb' 9 3) (w.extractLsb' 0 9)) ∧
    (w.extractLsb' 9 3 = 0#3 → decode w = .nop (w.extractLsb' 0 9))) ∧
  (∀ (nzp : BitVec 3) (off : BitVec 9) (s : State), ∃ t, exec (.br nzp off) s = .next t ∧
    ((∃ i < 3, nzp.getLsbD i = true ∧ s.cond.getLsbD i = true) → t.pc = s.pc + sext off) ∧
    ((∀ i < 3, ¬ (nzp.getLsbD i = true ∧ s.cond.getLsbD i = true)) → t.pc = s.pc) ∧
    t.cond = s.cond ∧ SameRegs s t ∧ SameMem s t ∧ SameRun s t ∧ SameHost s t) ∧
  (∀ (off : BitVec 9) (s : State), exec (.nop off) s = .next s)

/-- R162, R163: JMP and its case RET: PC is the base register's value; R7 is not written. -/
def Obligations.JumpToRegister : Prop :=
  (∀ w : Word, w &&& 0xF000#16 = 0xC000#16 →
    (w.extractLsb' 6 3 ≠ 7#3 → decode w = .jmp (regOfBits (w.extractLsb' 6 3))) ∧
    (w.extractLsb' 6 3 = 7#3 → decode w = .ret)) ∧
  (∀ (base : Reg) (s : State), ∃ t, exec (.jmp base) s = .next t ∧ t.pc = s.reg base ∧
    t.cond = s.cond ∧ SameRegs s t ∧ SameMem s t ∧ SameRun s t ∧ SameHost s t) ∧
  (∀ s : State, ∃ t, exec .ret s = .next t ∧ t.pc = s.reg .r7 ∧
    t.cond = s.cond ∧ SameRegs s t ∧ SameMem s t ∧ SameRun s t ∧ SameHost s t)

/-- R164: JSR: R7 is the address after it, PC that address plus the offset; no flag update. -/
def Obligations.JsrLinksAndJumps : Prop :=
  (∀ w : Word, w &&& 0xF800#16 = 0x4800#16 → decode w = .jsr (w.extractLsb' 0 11)) ∧
  ∀ (off : BitVec 11) (s : State), ∃ t, exec (.jsr off) s = .next t ∧
    t.reg .r7 = s.pc ∧ t.pc = s.pc + sext off ∧
    t.cond = s.cond ∧ SameRegsBut .r7 s t ∧ SameMem s t ∧ SameRun s t ∧ SameHost s t

/-- R165, R166: JSRR: R7 is written first, so with base R7 it falls through to the next instruction. -/
def Obligations.JsrrLinksThenJumps : Prop :=
  (∀ w : Word, w &&& 0xF800#16 = 0x4000#16 → decode w = .jsrr (regOfBits (w.extractLsb' 6 3))) ∧
  ∀ (base : Reg) (s : State), ∃ t, exec (.jsrr base) s = .next t ∧
    t.reg .r7 = s.pc ∧ (base ≠ .r7 → t.pc = s.reg base) ∧ (base = .r7 → t.pc = s.pc) ∧
    t.cond = s.cond ∧ SameRegsBut .r7 s t ∧ SameMem s t ∧ SameRun s t ∧ SameHost s t

/-! ### LD, LDI, LDR, LEA (spec/42_load.md) -/

/-- R181: LD: the word a bus read at PC + pcOffset9 answers. -/
def Obligations.LoadPcRelative : Prop :=
  (∀ w : Word, w &&& 0xF000#16 = 0x2000#16 →
    decode w = .ld (regOfBits (w.extractLsb' 9 3)) (w.extractLsb' 0 9)) ∧
  ∀ (dr : Reg) (off : BitVec 9) (s : State), ∃ m v t, BusRead (s.pc + sext off) s v m ∧
    exec (.ld dr off) s = .next t ∧ t.reg dr = v ∧ Classifies t.cond v ∧
    SameRegsBut dr m t ∧ t.pc = m.pc ∧ SameMem m t ∧ SameRun m t ∧ SameHost m t

/-- R182: LDI: two bus reads, the pointer first. -/
def Obligations.LoadIndirect : Prop :=
  (∀ w : Word, w &&& 0xF000#16 = 0xA000#16 →
    decode w = .ldi (regOfBits (w.extractLsb' 9 3)) (w.extractLsb' 0 9)) ∧
  ∀ (dr : Reg) (off : BitVec 9) (s : State), ∃ p ea m v t, BusRead (s.pc + sext off) s ea p ∧ BusRead ea p v m ∧
    exec (.ldi dr off) s = .next t ∧ t.reg dr = v ∧ Classifies t.cond v ∧
    SameRegsBut dr m t ∧ t.pc = m.pc ∧ SameMem m t ∧ SameRun m t ∧ SameHost m t

/-- R183: LDR: the word a bus read at R[BaseR] + offset6 answers. -/
def Obligations.LoadBaseOffset : Prop :=
  (∀ w : Word, w &&& 0xF000#16 = 0x6000#16 →
    decode w = .ldr (regOfBits (w.extractLsb' 9 3)) (regOfBits (w.extractLsb' 6 3)) (w.extractLsb' 0 6)) ∧
  ∀ (dr base : Reg) (off : BitVec 6) (s : State), ∃ m v t, BusRead (s.reg base + sext off) s v m ∧
    exec (.ldr dr base off) s = .next t ∧ t.reg dr = v ∧ Classifies t.cond v ∧
    SameRegsBut dr m t ∧ t.pc = m.pc ∧ SameMem m t ∧ SameRun m t ∧ SameHost m t

/-- R184: LEA: the address itself, with no memory access; COND is set from it. -/
def Obligations.LoadEffectiveAddress : Prop :=
  (∀ w : Word, w &&& 0xF000#16 = 0xE000#16 →
    decode w = .lea (regOfBits (w.extractLsb' 9 3)) (w.extractLsb' 0 9)) ∧
  ∀ (dr : Reg) (off : BitVec 9) (s : State), ∃ t, exec (.lea dr off) s = .next t ∧
    (t.reg dr).toNat = (s.pc.toNat + (sext off).toNat) % 65536 ∧ Classifies t.cond (t.reg dr) ∧
    SameRegsBut dr s t ∧ t.pc = s.pc ∧ SameMem s t ∧ SameRun s t ∧ SameHost s t

/-! ### ST, STI, STR (spec/43_store.md) -/

/-- R201: ST: the register's word at PC + pcOffset9, every other cell as before. -/
def Obligations.StorePcRelative : Prop :=
  (∀ w : Word, w &&& 0xF000#16 = 0x3000#16 →
    decode w = .st (regOfBits (w.extractLsb' 9 3)) (w.extractLsb' 0 9)) ∧
  ∀ (sr : Reg) (off : BitVec 9) (s : State), ∃ t, exec (.st sr off) s = .next t ∧
    (∀ a : Word, a = s.pc + sext off → t.mem.read a = s.reg sr ∧ SameMemBut a s t) ∧
    SameRegs s t ∧ t.pc = s.pc ∧ t.cond = s.cond ∧ SameRun s t ∧ SameHost s t

/-- R202: STI: the pointer is read from the bus; the register's word goes to the address it holds. -/
def Obligations.StoreIndirect : Prop :=
  (∀ w : Word, w &&& 0xF000#16 = 0xB000#16 →
    decode w = .sti (regOfBits (w.extractLsb' 9 3)) (w.extractLsb' 0 9)) ∧
  ∀ (sr : Reg) (off : BitVec 9) (s : State), ∃ p ea t, BusRead (s.pc + sext off) s ea p ∧
    exec (.sti sr off) s = .next t ∧ t.mem.read ea = s.reg sr ∧ SameMemBut ea p t ∧
    SameRegs s t ∧ t.pc = s.pc ∧ t.cond = s.cond ∧ SameRun s t ∧ SameHost p t

/-- R203: STR: the register's word at R[BaseR] + offset6. -/
def Obligations.StoreBaseOffset : Prop :=
  (∀ w : Word, w &&& 0xF000#16 = 0x7000#16 →
    decode w = .str (regOfBits (w.extractLsb' 9 3)) (regOfBits (w.extractLsb' 6 3)) (w.extractLsb' 0 6)) ∧
  ∀ (sr base : Reg) (off : BitVec 6) (s : State), ∃ t, exec (.str sr base off) s = .next t ∧
    (∀ a : Word, a = s.reg base + sext off → t.mem.read a = s.reg sr ∧ SameMemBut a s t) ∧
    SameRegs s t ∧ t.pc = s.pc ∧ t.cond = s.cond ∧ SameRun s t ∧ SameHost s t

/-! ### RTI and RES (spec/45_reserved.md) -/

/-- R260, R261, R278: RTI and RES, whatever their low twelve bits, raise IllegalOpcodeFault: the status shows it and nothing
else changes; no step follows. -/
def Obligations.ReservedOpcodesFault : Prop :=
  (∀ w : Word, (w &&& 0xF000#16 = 0x8000#16 → decode w = .rti) ∧ (w &&& 0xF000#16 = 0xD000#16 → decode w = .res)) ∧
  ∀ (i : Instr) (s : State), i = .rti ∨ i = .res → ∃ t, exec i s = .next t ∧
    t.status = .faultIllegalOpcode ∧ t.running = s.running ∧ t.pending = s.pending ∧
    SameRegs s t ∧ t.pc = s.pc ∧ t.cond = s.cond ∧ SameMem s t ∧ SameHost s t ∧
    step t = .fault .illegalOpcode

/-! ### TRAP (spec/44_trap.md) -/

/-- R220, R221, R232: the vector is the low eight bits; every TRAP, whatever its vector, writes the address after it to R7
and leaves PC and memory; the six vectors select the six services. That an unknown vector writes R7 too is the spec's own
decision D12 (log entry 13); that the decoder names a TRAP by its alias is the model's choice (log entry 19). -/
def Obligations.TrapLinksAndDispatches : Prop :=
  (∀ w : Word, w &&& 0xF000#16 = 0xF000#16 →
    (w.extractLsb' 0 8 = 0x20#8 → decode w = .trapGetc) ∧ (w.extractLsb' 0 8 = 0x21#8 → decode w = .trapOut) ∧
    (w.extractLsb' 0 8 = 0x22#8 → decode w = .trapPuts) ∧ (w.extractLsb' 0 8 = 0x23#8 → decode w = .trapIn) ∧
    (w.extractLsb' 0 8 = 0x24#8 → decode w = .trapPutsp) ∧ (w.extractLsb' 0 8 = 0x25#8 → decode w = .trapHalt)) ∧
  (∀ (i : Instr) (s t : State), i.row = ⟨0xF000#16, 0xF000#16⟩ → exec i s = .next t →
    t.reg .r7 = s.pc ∧ t.pc = s.pc ∧ SameMem s t) ∧
  (∀ s : State, exec (.trap 0x20#8) s = exec .trapGetc s ∧ exec (.trap 0x21#8) s = exec .trapOut s ∧
    exec (.trap 0x22#8) s = exec .trapPuts s ∧ exec (.trap 0x23#8) s = exec .trapIn s ∧
    exec (.trap 0x24#8) s = exec .trapPutsp s ∧ exec (.trap 0x25#8) s = exec .trapHalt s)

/-- R222, R230, R231: GETC. A byte waiting is taken and loaded, zero-extended, with COND; a host failure is IOFault with R0
and COND unchanged; with neither the service waits, R7 already written. No output in any case. -/
def Obligations.GetcReadsOneByte : Prop :=
  ∀ s : State, ∃ t, exec .trapGetc s = .next t ∧
    t.reg .r7 = s.pc ∧ t.pc = s.pc ∧ (∀ q : Reg, q ≠ .r0 → q ≠ .r7 → t.reg q = s.reg q) ∧
    SameMem s t ∧ SameOutput s t ∧ t.running = s.running ∧
    t.schedule = s.schedule ∧ t.oracleTurn = s.oracleTurn ∧ t.inputFails = s.inputFails ∧
    (∀ b rest, s.inq = b :: rest → t.inq = rest ∧ (t.reg .r0).toNat = b.toNat ∧ Classifies t.cond (t.reg .r0) ∧
      t.status = s.status ∧ t.pending = none) ∧
    (s.inq = [] → t.inq = [] ∧ t.reg .r0 = s.reg .r0 ∧ t.cond = s.cond) ∧
    (s.inq = [] → s.inputFails = true → t.status = .faultIo ∧ t.pending = none) ∧
    (s.inq = [] → s.inputFails = false → t.status = s.status ∧ t.pending = some .getc)

/-- R223, R45, R230, R272: OUT. The low byte of R0 is appended; a failed write is IOFault and appends nothing, with R7
written: the terminal status and what stands at it are the spec's own decision D4 (log entry 5). -/
def Obligations.OutWritesTheLowByte : Prop :=
  ∀ s : State, ∃ t, exec .trapOut s = .next t ∧
    t.reg .r7 = s.pc ∧ t.pc = s.pc ∧ SameRegsBut .r7 s t ∧ t.cond = s.cond ∧ SameMem s t ∧ SameInput s t ∧
    t.running = s.running ∧ t.pending = none ∧
    (HostTakes s 1 → t.status = s.status ∧ Wrote [(s.reg .r0).setWidth 8] s t) ∧
    (s.writesLeft = some 0 → t.status = .faultIo ∧ SameOutput s t)

/-- R224, R230: PUTS. The words of the string at R0, one character each: for words up to 0x007F the bytes are known, and the
others are rendered by the open PUTS_RENDER (log entry 9). The terminating zero word is not written; R0 is not changed. -/
def Obligations.PutsWritesTheString : Prop :=
  (∀ w : Word, w.toNat ≤ 0x007F → Config.putsRender w = [w.setWidth 8]) ∧
  ∀ (s : State) (ws : List Word), StringAt s.mem (s.reg .r0) ws → ∃ t, exec .trapPuts s = .next t ∧
    t.reg .r7 = s.pc ∧ t.pc = s.pc ∧ SameRegsBut .r7 s t ∧ t.cond = s.cond ∧ SameMem s t ∧ SameInput s t ∧
    t.running = s.running ∧ t.pending = none ∧
    (HostTakes s (ws.flatMap Config.putsRender).length →
      t.status = s.status ∧ Wrote (ws.flatMap Config.putsRender) s t) ∧
    (∀ m, s.writesLeft = some m → m < (ws.flatMap Config.putsRender).length →
      t.status = .faultIo ∧ WroteUntilFail (ws.flatMap Config.putsRender) m s t)

/-- R225, R230, R231: IN. The prompt, the 17 bytes of IN_PROMPT (R5, D11, log entry 12), then the blocking read, then the
echo, then R0, zero-extended (D24, log entry 18), and COND; a failure at any point is IOFault with what came before it standing; without a byte the service waits with the prompt written. -/
def Obligations.InPromptsReadsAndEchoes : Prop :=
  ∀ (s : State) (prompt : List Byte),
    prompt = [0x45#8, 0x6E#8, 0x74#8, 0x65#8, 0x72#8, 0x20#8, 0x63#8, 0x68#8, 0x61#8, 0x72#8, 0x61#8, 0x63#8, 0x74#8, 0x65#8,
      0x72#8, 0x3A#8, 0x20#8] →
    ∃ t, exec .trapIn s = .next t ∧
    t.reg .r7 = s.pc ∧ t.pc = s.pc ∧ (∀ q : Reg, q ≠ .r0 → q ≠ .r7 → t.reg q = s.reg q) ∧
    SameMem s t ∧ t.running = s.running ∧ t.schedule = s.schedule ∧ t.oracleTurn = s.oracleTurn ∧
    t.inputFails = s.inputFails ∧
    (∀ b rest, s.inq = b :: rest → HostTakes s 18 →
      Wrote (prompt ++ [b]) s t ∧ t.inq = rest ∧ (t.reg .r0).toNat = b.toNat ∧ Classifies t.cond (t.reg .r0) ∧
      t.status = s.status ∧ t.pending = none) ∧
    (∀ b rest, s.inq = b :: rest → s.writesLeft = some 17 →
      WroteUntilFail prompt 17 s t ∧ t.inq = rest ∧ t.reg .r0 = s.reg .r0 ∧ t.cond = s.cond ∧
      t.status = .faultIo ∧ t.pending = none) ∧
    (∀ m, s.writesLeft = some m → m < 17 →
      WroteUntilFail prompt m s t ∧ t.inq = s.inq ∧ t.reg .r0 = s.reg .r0 ∧ t.cond = s.cond ∧
      t.status = .faultIo ∧ t.pending = none) ∧
    (s.inq = [] → HostTakes s 17 →
      Wrote prompt s t ∧ t.inq = [] ∧ t.reg .r0 = s.reg .r0 ∧ t.cond = s.cond ∧
      (s.inputFails = true → t.status = .faultIo ∧ t.pending = none) ∧
      (s.inputFails = false → t.status = s.status ∧ t.pending = some .inp))

/-- R226, R230: PUTSP. For each word of the string at R0 its low byte, then its high byte unless that is zero. That a zero
byte inside a word does not end the string is the spec's own decision D10 (log entry 11); that the string is read from the
array directly, over 0xFE00 too, is D9 (log entry 10). -/
def Obligations.PutspWritesThePackedString : Prop :=
  ∀ (s : State) (ws : List Word) (bytes : List Byte), StringAt s.mem (s.reg .r0) ws →
    bytes = ws.flatMap (fun w : Word => if w.toNat < 256 then [w.setWidth 8] else [w.setWidth 8, (w >>> 8).setWidth 8]) →
    ∃ t, exec .trapPutsp s = .next t ∧
    t.reg .r7 = s.pc ∧ t.pc = s.pc ∧ SameRegsBut .r7 s t ∧ t.cond = s.cond ∧ SameMem s t ∧ SameInput s t ∧
    t.running = s.running ∧ t.pending = none ∧
    (HostTakes s bytes.length → t.status = s.status ∧ Wrote bytes s t) ∧
    (∀ m, s.writesLeft = some m → m < bytes.length → t.status = .faultIo ∧ WroteUntilFail bytes m s t)

/-- R229, R282 (d), U12, log entry 16: PUTS and PUTSP over a memory with no zero word. One round is the 65,536 words from R0
on. The instruction writes a round and stays in progress; with it in progress every step writes the round again and leaves
memory, registers, PC, COND and run state as they are; so over a host that never fails no run ever leaves it. A host that
fails within a round ends it in IOFault (R230, D4, log entry 5). That 0xFE00, which is in every such string, is read
directly is the spec's own decision D9 (log entry 10); one round a step is the model's (log entry 16). -/
def Obligations.StringWithoutEndNeverCompletes : Prop :=
  ∀ (s : State) (i : Instr) (p : Pending) (render : Word → List Byte),
    (i = .trapPuts ∧ p = .puts ∧ render = Config.putsRender) ∨
      (i = .trapPutsp ∧ p = .putsp ∧ render = putspRender) →
    (∀ a : Word, s.mem.read a ≠ 0x0000#16) →
    ∃ ws : List Word, ws.length = 65536 ∧
      (∀ k : Nat, ∀ h : k < ws.length, ws[k] = s.mem.read (s.reg .r0 + BitVec.ofNat 16 k)) ∧
      (∃ t, exec i s = .next t ∧
        t.reg .r7 = s.pc ∧ t.pc = s.pc ∧ SameRegsBut .r7 s t ∧ t.cond = s.cond ∧ SameMem s t ∧ SameInput s t ∧
        t.running = s.running ∧
        (HostTakes s (ws.flatMap render).length →
          t.pending = some p ∧ t.status = s.status ∧ Wrote (ws.flatMap render) s t) ∧
        (∀ m, s.writesLeft = some m → m < (ws.flatMap render).length →
          t.pending = none ∧ t.status = .faultIo ∧ WroteUntilFail (ws.flatMap render) m s t)) ∧
      (Runs s → s.pending = some p → ∃ u, step s = .next u ∧
        SameRegs s u ∧ u.pc = s.pc ∧ u.cond = s.cond ∧ SameMem s u ∧ SameInput (hostTurn s) u ∧ u.running = s.running ∧
        (HostTakes s (ws.flatMap render).length →
          u.pending = some p ∧ u.status = s.status ∧ Wrote (ws.flatMap render) s u) ∧
        (∀ m, s.writesLeft = some m → m < (ws.flatMap render).length →
          u.pending = none ∧ u.status = .faultIo ∧ WroteUntilFail (ws.flatMap render) m s u)) ∧
      (Runs s → s.pending = some p → s.writesLeft = none → ∀ u, Reaches s u →
        Runs u ∧ u.pending = some p ∧ SameRegs s u ∧ u.pc = s.pc ∧ u.cond = s.cond ∧ SameMem s u ∧
        ∃ rounds : Nat, u.out = s.out ++ (List.replicate rounds (ws.flatMap render)).flatten)

/-- R227, R230: HALT. The message, then the running flag and the status; if the message cannot be written the status is
FAULT_IO and the flag is not cleared. -/
def Obligations.HaltPrintsAndStops : Prop :=
  ∀ s : State, ∃ t, exec .trapHalt s = .next t ∧
    t.reg .r7 = s.pc ∧ t.pc = s.pc ∧ SameRegsBut .r7 s t ∧ t.cond = s.cond ∧ SameMem s t ∧ SameInput s t ∧
    t.pending = none ∧
    (HostTakes s 4 → t.running = false ∧ t.status = .halted ∧ Wrote [0x48#8, 0x41#8, 0x4C#8, 0x54#8] s t ∧
      step t = .fault .halted) ∧
    (∀ m, s.writesLeft = some m → m < 4 → t.running = s.running ∧ t.status = .faultIo ∧
      WroteUntilFail [0x48#8, 0x41#8, 0x4C#8, 0x54#8] m s t ∧ step t = .fault .ioFault)

/-- R228: a vector outside 0x20 to 0x25 writes R7 and does nothing else, also where the instruction is named by the parent
row. -/
def Obligations.UnknownVectorOnlyLinks : Prop :=
  (∀ w : Word, w &&& 0xF000#16 = 0xF000#16 →
    ((w.extractLsb' 0 8).toNat < 0x20 ∨ 0x25 < (w.extractLsb' 0 8).toNat) →
    decode w = .trapUnknown (w.extractLsb' 0 8)) ∧
  ∀ (v : BitVec 8) (i : Instr) (s : State), (v.toNat < 0x20 ∨ 0x25 < v.toNat) → i = .trap v ∨ i = .trapUnknown v →
    ∃ t, exec i s = .next t ∧ t.reg .r7 = s.pc ∧ SameRegsBut .r7 s t ∧ t.pc = s.pc ∧ t.cond = s.cond ∧
      SameMem s t ∧ SameRun s t ∧ SameHost s t

/-- R231, log entry 7: what lifts the wait of GETC. Until the host appends a byte or reports a failure a step changes
nothing of the core; then the service ends as R222 says. -/
def Obligations.WaitingGetcResumes : Prop :=
  ∀ s : State, Runs s → s.pending = some .getc → ∃ t, step s = .next t ∧
    t.pc = s.pc ∧ (∀ q : Reg, q ≠ .r0 → t.reg q = s.reg q) ∧ SameMem s t ∧ t.out = s.out ∧
    ((hostTurn s).inq = [] → (hostTurn s).inputFails = false → t = hostTurn s) ∧
    ((hostTurn s).inq = [] → (hostTurn s).inputFails = true →
      t.status = .faultIo ∧ t.reg .r0 = s.reg .r0 ∧ t.cond = s.cond) ∧
    (∀ b rest, (hostTurn s).inq = b :: rest →
      t.inq = rest ∧ (t.reg .r0).toNat = b.toNat ∧ Classifies t.cond (t.reg .r0) ∧
      t.pending = none ∧ t.status = .running)

/-- R231, R225, log entry 7: what lifts the wait of IN: the prompt is not written again; a byte is echoed and loaded. That
it is zero-extended is the spec's own decision D24 (log entry 18). -/
def Obligations.WaitingInResumes : Prop :=
  ∀ s : State, Runs s → s.pending = some .inp → ∃ t, step s = .next t ∧
    t.pc = s.pc ∧ (∀ q : Reg, q ≠ .r0 → t.reg q = s.reg q) ∧ SameMem s t ∧
    ((hostTurn s).inq = [] → (hostTurn s).inputFails = false → t = hostTurn s) ∧
    ((hostTurn s).inq = [] → (hostTurn s).inputFails = true →
      t.status = .faultIo ∧ t.reg .r0 = s.reg .r0 ∧ t.cond = s.cond ∧ t.out = s.out) ∧
    (∀ b rest, (hostTurn s).inq = b :: rest → HostTakes s 1 →
      t.inq = rest ∧ t.out = s.out ++ [b] ∧ (t.reg .r0).toNat = b.toNat ∧ Classifies t.cond (t.reg .r0) ∧
      t.pending = none ∧ t.status = .running) ∧
    (∀ b rest, (hostTurn s).inq = b :: rest → s.writesLeft = some 0 →
      t.inq = rest ∧ t.out = s.out ∧ t.reg .r0 = s.reg .r0 ∧ t.cond = s.cond ∧
      t.pending = none ∧ t.status = .faultIo)

/-! ### The loader (spec/70_reset_and_hazards.md) -/

/-- R320, R321, and the law of R322: loading the image with origin O = f[0] * 256 + f[1] and words
w_i = f[2 + 2i] * 256 + f[3 + 2i], where O + k <= 65536, puts w_i at O + i, leaves every other cell, and touches nothing else. -/
def Obligations.ImageRoundTrip : Prop :=
  ∀ (b0 b1 : Byte) (ws : List (Byte × Byte)) (o : Nat) (s : State), o = b0.toNat * 256 + b1.toNat →
    o + ws.length ≤ 65536 →
    ∃ t, loadImage ([b0, b1] ++ ws.flatMap (fun w => [w.1, w.2])) s = .ok t ∧
      (∀ i : Nat, ∀ h : i < ws.length,
        (t.mem.read (BitVec.ofNat 16 (o + i))).toNat = (ws[i]).1.toNat * 256 + (ws[i]).2.toNat) ∧
      (∀ a : Word, (a.toNat < o ∨ o + ws.length ≤ a.toNat) → t.mem.read a = s.mem.read a) ∧
      SameRegs s t ∧ t.pc = s.pc ∧ t.cond = s.cond ∧ SameRun s t ∧ SameHost s t

/-- R321: the loader stops once 0xFFFF has been written; nothing after that word is loaded and it does not wrap to 0x0000. -/
def Obligations.LoaderStopsAtTheTop : Prop :=
  ∀ (b0 b1 : Byte) (ws : List (Byte × Byte)) (more : List Byte) (s : State),
    b0.toNat * 256 + b1.toNat + ws.length = 65536 →
    loadImage ([b0, b1] ++ ws.flatMap (fun w => [w.1, w.2]) ++ more) s =
      loadImage ([b0, b1] ++ ws.flatMap (fun w => [w.1, w.2])) s

/-- R323, R273: a missing or unreadable file is a LoadError, any other is loaded by its bytes; fewer than two bytes are a
LoadError; two bytes load nothing; a single byte left after the last whole word is dropped. What a malformed image is, is
the spec's own decision D13 (log entry 14). -/
def Obligations.MalformedImages : Prop :=
  ∀ (s : State), loadFile none s = .error .unreadable ∧ (∀ f : List Byte, loadFile (some f) s = loadImage f s) ∧
    loadImage [] s = .error .noOrigin ∧ (∀ b : Byte, loadImage [b] s = .error .noOrigin) ∧
    (∀ b c : Byte, loadImage [b, c] s = .ok s) ∧
    (∀ (b0 b1 : Byte) (ws : List (Byte × Byte)) (b : Byte),
      loadImage ([b0, b1] ++ ws.flatMap (fun w => [w.1, w.2]) ++ [b]) s =
        loadImage ([b0, b1] ++ ws.flatMap (fun w => [w.1, w.2])) s)

/-- R322, R323: images load in order, each over what the ones before left; a LoadError in any of them leaves no machine to
run. -/
def Obligations.ImagesLoadInOrder : Prop :=
  (∀ s : State, loadImages [] s = .ok s) ∧
  ∀ (f : Option (List Byte)) (rest : List (Option (List Byte))) (s : State),
    (∀ t, loadFile f s = .ok t → loadImages (f :: rest) s = loadImages rest t) ∧
    (∀ e, loadFile f s = .error e → loadImages (f :: rest) s = .error e)
end

