-- ==== Sys2Proof/Laws/Bits.lean ====
section
/-!
SUPPORT. The byte splits and extensions in terms of numbers (spec/00_scope.md R7, R9, R10), and words that differ only in the
bits of a mask.
-/

namespace Sys2Proof.Machine

/-- w[7:0] is the word's low eight bits. -/
theorem lowByte_eq (w : Word) : lowByte w = w.setWidth 8 := by
  apply BitVec.eq_of_getLsbD_eq
  intro i hi
  simp [lowByte, hi]

/-- w[15:8] is the word shifted right by eight. -/
theorem highByte_eq (w : Word) : highByte w = (w >>> 8).setWidth 8 := by
  apply BitVec.eq_of_getLsbD_eq
  intro i hi
  simp [highByte, hi]

/-- The high byte is zero exactly below 0x0100. -/
theorem highByte_eq_zero (w : Word) : highByte w = 0#8 ↔ w.toNat < 256 := by
  have hw := w.isLt
  rw [highByte_eq]
  constructor
  · intro h
    have := congrArg BitVec.toNat h
    simp [Nat.shiftRight_eq_div_pow] at this
    omega
  · intro h
    apply BitVec.eq_of_toNat_eq
    simp [Nat.shiftRight_eq_div_pow]
    omega

/-- zext_8 keeps the byte's value (R10). -/
theorem zext8_toNat (b : Byte) : (zext8 b).toNat = b.toNat := by
  have := b.isLt
  simp [zext8]
  omega

/-- The word of two bytes, high first, as a number (R70 (a), R320). -/
theorem wordOfBytes_toNat (b0 b1 : Byte) : (wordOfBytes b0 b1).toNat = b0.toNat * 256 + b1.toNat := by
  have h1 := b1.isLt
  simp only [wordOfBytes, BitVec.toNat_append]
  rw [Nat.shiftLeft_eq, ← Nat.shiftLeft_eq, Nat.shiftLeft_add_eq_or_of_lt h1, Nat.shiftLeft_eq]

/-- The value of an extended field (R9). -/
theorem sext_toNat {n : Nat} (hn : n ≤ 15) (f : BitVec n) :
    (sext f).toNat = f.toNat + (if 2 ^ (n - 1) ≤ f.toNat then 65536 - 2 ^ n else 0) := by
  have hp : (2 : Nat) ^ n ≤ 2 ^ 15 := Nat.pow_le_pow_right (by omega) hn
  have hf := f.isLt
  have e : (2 : Nat) ^ 16 = 65536 := by norm_num
  simp only [sext, BitVec.toNat_signExtend, BitVec.msb_eq_decide, decide_eq_true_eq, BitVec.toNat_setWidth]
  rw [Nat.mod_eq_of_lt (a := f.toNat) (by omega), e]

/-- Changing bits outside a mask does not change what is under it. -/
theorem xor_and_of_disjoint (w m g k : Word) (h : g &&& k = 0#16) : (w ^^^ (m &&& g)) &&& k = w &&& k := by
  apply BitVec.eq_of_getLsbD_eq
  intro j hj
  have := congrArg (fun b => b.getLsbD j) h
  simp only [BitVec.getLsbD_and, BitVec.getLsbD_xor, BitVec.getLsbD_zero] at this ⊢
  cases hw : w.getLsbD j <;> cases hm : m.getLsbD j <;> cases hk : k.getLsbD j <;> simp_all

/-- Changing bits outside a field does not change the field. -/
theorem extract_xor_of_disjoint (w m g : Word) (a n : Nat) (h : g.extractLsb' a n = 0#n) :
    (w ^^^ (m &&& g)).extractLsb' a n = w.extractLsb' a n := by
  rw [BitVec.extractLsb'_xor, BitVec.extractLsb'_and, h]; simp

end Sys2Proof.Machine
end

