-- ==== Sys2Proof/Laws/Parameters.lean ====
section
/-!
SUPPORT. The values of the configuration record's fields, and that the machine's types have the widths and the counts the
record names (spec/00_scope.md R5).
-/

namespace Sys2Proof

@[simp] theorem parameters_memWords : parameters.memWords = 65536 := rfl
@[simp] theorem parameters_linkReg : parameters.linkReg = .r7 := rfl
@[simp] theorem parameters_pcReset : parameters.pcReset = 0x3000#16 := rfl
@[simp] theorem parameters_condReset : parameters.condReset = 0x0002#16 := rfl
@[simp] theorem parameters_gprReset : parameters.gprReset = 0x0000#16 := rfl
@[simp] theorem parameters_memReset : parameters.memReset = 0x0000#16 := rfl
@[simp] theorem parameters_flPos : parameters.flPos = 0x0001#16 := rfl
@[simp] theorem parameters_flZro : parameters.flZro = 0x0002#16 := rfl
@[simp] theorem parameters_flNeg : parameters.flNeg = 0x0004#16 := rfl
@[simp] theorem parameters_kbsr : parameters.kbsr = 0xFE00#16 := rfl
@[simp] theorem parameters_kbdr : parameters.kbdr = 0xFE02#16 := rfl
@[simp] theorem parameters_kbsrReady : parameters.kbsrReady = 0x8000#16 := rfl
@[simp] theorem parameters_trapGetc : parameters.trapGetc = 0x20#8 := rfl
@[simp] theorem parameters_trapOut : parameters.trapOut = 0x21#8 := rfl
@[simp] theorem parameters_trapPuts : parameters.trapPuts = 0x22#8 := rfl
@[simp] theorem parameters_trapIn : parameters.trapIn = 0x23#8 := rfl
@[simp] theorem parameters_trapPutsp : parameters.trapPutsp = 0x24#8 := rfl
@[simp] theorem parameters_trapHalt : parameters.trapHalt = 0x25#8 := rfl

/-- LINK_REG as the register it is. -/
@[simp] theorem Config.linkReg_eq : Config.linkReg = .r7 := rfl

theorem Config.inPrompt_eq : Config.inPrompt =
    [0x45#8, 0x6E#8, 0x74#8, 0x65#8, 0x72#8, 0x20#8, 0x63#8, 0x68#8, 0x61#8, 0x72#8, 0x61#8, 0x63#8, 0x74#8, 0x65#8, 0x72#8,
      0x3A#8, 0x20#8] := rfl

theorem Config.haltMessage_eq : Config.haltMessage = [0x48#8, 0x41#8, 0x4C#8, 0x54#8] := rfl

theorem Config.putsRender_eq (w : Word) :
    Config.putsRender w = if w ≤ 0x007F#16 then [w.extractLsb' 0 8] else Config.putsRenderOpen w := rfl

/-- WORD_BITS is the width of the word type. -/
theorem word_width : Word = BitVec parameters.wordBits := rfl

/-- MEM_WORDS is what ADDR_BITS can address. -/
theorem memWords_eq_pow : parameters.memWords = 2 ^ parameters.addrBits := by decide

/-- NUM_GPR is the number of register names. -/
theorem numGpr_eq : [Reg.r0, .r1, .r2, .r3, .r4, .r5, .r6, .r7].length = parameters.numGpr ∧
    ∀ r : Reg, r ∈ [Reg.r0, .r1, .r2, .r3, .r4, .r5, .r6, .r7] := ⟨rfl, fun r => by cases r <;> decide⟩

end Sys2Proof
end

