-- ==== Sys2Proof/Laws/Memory.lean ====
section
/-!
SUPPORT. Memory: a read after a write, and that a write keeps the canonical form (log entry 1). The first two hold for every
list of cells, canonical or not.
-/

namespace Sys2Proof.Machine

theorem Memory.lookup_insert_same (k : Nat) (v : Word) (m : Memory) (h : ∀ c ∈ m, c.1 ≠ k) :
    Memory.lookup (Memory.insert k v m) k = v := by
  induction m with
  | nil => simp [Memory.insert, Memory.lookup]
  | cons c rest ih =>
    have hc : c.1 ≠ k := h c (by simp)
    have ih' := ih (fun d hd => h d (by simp [hd]))
    unfold Memory.insert
    split <;> simp [Memory.lookup, hc, ih']

theorem Memory.lookup_insert_ne (k j : Nat) (v : Word) (m : Memory) (h : j ≠ k) :
    Memory.lookup (Memory.insert k v m) j = Memory.lookup m j := by
  induction m with
  | nil => simp [Memory.insert, Memory.lookup, h.symm]
  | cons c rest ih =>
    unfold Memory.insert
    split
    · simp [Memory.lookup, h.symm]
    · simp [Memory.lookup, ih]

theorem Memory.lookup_filter_same (k : Nat) (m : Memory) :
    Memory.lookup (List.filter (fun c : Cell => c.1 != k) m) k = Config.memReset := by
  induction m with
  | nil => rfl
  | cons c rest ih =>
    by_cases hc : c.1 = k
    · simpa [hc] using ih
    · simpa [hc, Memory.lookup] using ih

theorem Memory.lookup_filter_ne (k j : Nat) (m : Memory) (h : j ≠ k) :
    Memory.lookup (List.filter (fun c : Cell => c.1 != k) m) j = Memory.lookup m j := by
  induction m with
  | nil => rfl
  | cons c rest ih =>
    by_cases hc : c.1 = k
    · have : k ≠ j := fun e => h e.symm
      simpa [hc, Memory.lookup, this] using ih
    · simp [hc, Memory.lookup, ih]

/-- Read after write, same address (R64, R76). -/
@[simp] theorem Memory.read_write_same (m : Memory) (a v : Word) : (m.write a v).read a = v := by
  unfold Memory.read Memory.write
  split
  · next h => rw [Memory.lookup_filter_same, h]
  · exact Memory.lookup_insert_same _ _ _ (by simp)

/-- Read after write, another address (R64, R76). -/
theorem Memory.read_write_ne (m : Memory) (a b v : Word) (h : b ≠ a) : (m.write a v).read b = m.read b := by
  have h' : b.toNat ≠ a.toNat := fun e => h (BitVec.eq_of_toNat_eq e)
  unfold Memory.read Memory.write
  split
  · exact Memory.lookup_filter_ne _ _ _ h'
  · rw [Memory.lookup_insert_ne _ _ _ _ h', Memory.lookup_filter_ne _ _ _ h']

/-- Read after write, any address. -/
theorem Memory.read_write (m : Memory) (a b v : Word) :
    (m.write a v).read b = if b = a then v else m.read b := by
  split
  · next h => rw [h, Memory.read_write_same]
  · next h => exact Memory.read_write_ne _ _ _ _ h

/-- A cell nothing has written reads as MEM_RESET (R37, R83). -/
@[simp] theorem Memory.read_nil (a : Word) : Memory.read [] a = 0x0000#16 := rfl

/-! ### The canonical form -/

theorem Memory.wfFrom_mono (m : Memory) (lo lo' : Nat) (h : lo' ≤ lo) (hm : Memory.wfFrom lo m = true) :
    Memory.wfFrom lo' m = true := by
  cases m with
  | nil => rfl
  | cons c rest =>
    simp only [Memory.wfFrom, Bool.and_eq_true, decide_eq_true_eq] at hm ⊢
    exact ⟨⟨⟨by omega, hm.1.1.2⟩, hm.1.2⟩, hm.2⟩

theorem Memory.wfFrom_filter (m : Memory) (lo : Nat) (p : Cell → Bool) (hm : Memory.wfFrom lo m = true) :
    Memory.wfFrom lo (List.filter p m) = true := by
  induction m generalizing lo with
  | nil => rfl
  | cons c rest ih =>
    simp only [Memory.wfFrom, Bool.and_eq_true, decide_eq_true_eq] at hm
    by_cases hp : p c = true
    · simp only [List.filter_cons, hp, if_true, Memory.wfFrom, Bool.and_eq_true, decide_eq_true_eq]
      exact ⟨hm.1, ih _ hm.2⟩
    · simp only [List.filter_cons, hp]
      exact Memory.wfFrom_mono _ (c.1 + 1) lo (by omega) (ih _ hm.2)

theorem Memory.wfFrom_insert (m : Memory) (lo k : Nat) (v : Word) (hk : lo ≤ k) (hk' : k < Config.memWords)
    (hv : v ≠ Config.memReset) (hne : ∀ c ∈ m, c.1 ≠ k) (hm : Memory.wfFrom lo m = true) :
    Memory.wfFrom lo (Memory.insert k v m) = true := by
  induction m generalizing lo with
  | nil => simp [Memory.insert, Memory.wfFrom, hk, hk', hv]
  | cons c rest ih =>
    have hc : c.1 ≠ k := hne c (by simp)
    simp only [Memory.wfFrom, Bool.and_eq_true, decide_eq_true_eq] at hm
    unfold Memory.insert
    split
    · simp only [Memory.wfFrom, Bool.and_eq_true, decide_eq_true_eq]
      exact ⟨⟨⟨hk, hk'⟩, by simpa using hv⟩, ⟨⟨by omega, hm.1.1.2⟩, hm.1.2⟩, hm.2⟩
    · simp only [Memory.wfFrom, Bool.and_eq_true, decide_eq_true_eq]
      exact ⟨hm.1, ih _ (by omega) (fun d hd => hne d (by simp [hd])) hm.2⟩

/-- A write keeps the canonical form. -/
theorem Memory.wf_write (m : Memory) (a v : Word) (hm : m.wf = true) : (m.write a v).wf = true := by
  unfold Memory.wf Memory.write at *
  split
  · exact Memory.wfFrom_filter _ _ _ hm
  · next hv =>
    refine Memory.wfFrom_insert _ _ _ _ (Nat.zero_le _) ?_ hv (by simp) (Memory.wfFrom_filter _ _ _ hm)
    have := a.isLt
    simpa [Config.memWords] using this

@[simp] theorem Memory.wf_nil : Memory.wf [] = true := rfl

/-- No cell below the first listed address is listed. -/
theorem Memory.lookup_lt (m : Memory) (lo k : Nat) (hk : k < lo) (hm : Memory.wfFrom lo m = true) :
    Memory.lookup m k = Config.memReset := by
  induction m generalizing lo with
  | nil => rfl
  | cons c rest ih =>
    simp only [Memory.wfFrom, Bool.and_eq_true, decide_eq_true_eq] at hm
    have : c.1 ≠ k := by omega
    simpa [Memory.lookup, this] using ih (c.1 + 1) (by omega) hm.2

theorem Memory.eq_of_lookup (m n : Memory) (lo : Nat) (hm : Memory.wfFrom lo m = true)
    (hn : Memory.wfFrom lo n = true) (h : ∀ k, k < Config.memWords → Memory.lookup m k = Memory.lookup n k) : m = n := by
  induction m generalizing n lo with
  | nil =>
    cases n with
    | nil => rfl
    | cons d rest =>
      simp only [Memory.wfFrom, Bool.and_eq_true, decide_eq_true_eq] at hn
      have := h d.1 hn.1.1.2
      simp [Memory.lookup] at this
      simp [← this] at hn
  | cons c rest ih =>
    simp only [Memory.wfFrom, Bool.and_eq_true, decide_eq_true_eq] at hm
    cases n with
    | nil =>
      have := h c.1 hm.1.1.2
      simp [Memory.lookup] at this
      simp [this] at hm
    | cons d rest' =>
      simp only [Memory.wfFrom, Bool.and_eq_true, decide_eq_true_eq] at hn
      have hcd : c.1 = d.1 := by
        rcases Nat.lt_trichotomy c.1 d.1 with hlt | heq | hgt
        · have hk := h c.1 hm.1.1.2
          have hne : d.1 ≠ c.1 := by omega
          simp [Memory.lookup, hne, Memory.lookup_lt rest' (d.1 + 1) c.1 (by omega) hn.2] at hk
          simp [hk] at hm
        · exact heq
        · have hk := h d.1 hn.1.1.2
          have hne : c.1 ≠ d.1 := by omega
          simp [Memory.lookup, hne, Memory.lookup_lt rest (c.1 + 1) d.1 (by omega) hm.2] at hk
          simp [← hk] at hn
      have hv : c.2 = d.2 := by
        have hk := h c.1 hm.1.1.2
        simpa [Memory.lookup, hcd] using hk
      have hrest : rest = rest' := by
        refine ih rest' (c.1 + 1) hm.2 (by rw [hcd]; exact hn.2) (fun k hk => ?_)
        by_cases hkc : c.1 = k
        · rw [Memory.lookup_lt rest (c.1 + 1) k (by omega) hm.2,
            Memory.lookup_lt rest' (d.1 + 1) k (by omega) hn.2]
        · have := h k hk
          simpa [Memory.lookup, hkc, ← hcd] using this
      rw [hrest, Prod.ext hcd hv]

/-- Two canonical memories that read alike are the same list: equal memories are equal data. -/
theorem Memory.eq_of_read (m n : Memory) (hm : m.wf = true) (hn : n.wf = true)
    (h : ∀ a : Word, m.read a = n.read a) : m = n := by
  refine Memory.eq_of_lookup m n 0 hm hn (fun k hk => ?_)
  have := h (BitVec.ofNat 16 k)
  have hmod : (BitVec.ofNat 16 k).toNat = k := by
    simp only [BitVec.toNat_ofNat]
    exact Nat.mod_eq_of_lt (by simpa [Config.memWords] using hk)
  simpa [Memory.read, hmod] using this

end Sys2Proof.Machine
end

