-- ==== Sys2Proof/Laws/State.lean ====
section
/-!
SUPPORT. One lemma per field of State and per update, so that no later proof unfolds a record update; and reads of a
general register after each.
-/

namespace Sys2Proof.Machine

/-! ### The register file -/

@[simp] theorem RegFile.get_set_same (f : RegFile) (r : Reg) (v : Word) : (f.set r v).get r = v := by cases r <;> rfl

theorem RegFile.get_set_ne (f : RegFile) (r q : Reg) (v : Word) (h : q ≠ r) : (f.set r v).get q = f.get q := by
  cases r <;> cases q <;> first | rfl | exact absurd rfl h

/-- Two register files that read alike are equal. -/
theorem RegFile.ext_get (f g : RegFile) (h : ∀ r, f.get r = g.get r) : f = g := by
  cases f; cases g
  have h0 := h .r0; have h1 := h .r1; have h2 := h .r2; have h3 := h .r3
  have h4 := h .r4; have h5 := h .r5; have h6 := h .r6; have h7 := h .r7
  simp only [RegFile.get] at h0 h1 h2 h3 h4 h5 h6 h7
  simp [*]

@[simp] theorem reg_setReg_same (s : State) (r : Reg) (v : Word) : (s.setReg r v).reg r = v :=
  RegFile.get_set_same _ _ _

@[simp] theorem reg_setReg_ne (s : State) (r q : Reg) (v : Word) (h : q ≠ r) : (s.setReg r v).reg q = s.reg q :=
  RegFile.get_set_ne _ _ _ _ h

/-! ### setReg -/

@[simp] theorem setReg_regs (s : State) (r : Reg) (v : Word) : (s.setReg r v).regs = s.regs.set r v := rfl
@[simp] theorem setReg_pc (s : State) (r : Reg) (v : Word) : (s.setReg r v).pc = s.pc := rfl
@[simp] theorem setReg_cond (s : State) (r : Reg) (v : Word) : (s.setReg r v).cond = s.cond := rfl
@[simp] theorem setReg_running (s : State) (r : Reg) (v : Word) : (s.setReg r v).running = s.running := rfl
@[simp] theorem setReg_status (s : State) (r : Reg) (v : Word) : (s.setReg r v).status = s.status := rfl
@[simp] theorem setReg_mem (s : State) (r : Reg) (v : Word) : (s.setReg r v).mem = s.mem := rfl
@[simp] theorem setReg_pending (s : State) (r : Reg) (v : Word) : (s.setReg r v).pending = s.pending := rfl
@[simp] theorem setReg_inq (s : State) (r : Reg) (v : Word) : (s.setReg r v).inq = s.inq := rfl
@[simp] theorem setReg_out (s : State) (r : Reg) (v : Word) : (s.setReg r v).out = s.out := rfl
@[simp] theorem setReg_schedule (s : State) (r : Reg) (v : Word) : (s.setReg r v).schedule = s.schedule := rfl
@[simp] theorem setReg_oracleTurn (s : State) (r : Reg) (v : Word) : (s.setReg r v).oracleTurn = s.oracleTurn := rfl
@[simp] theorem setReg_inputFails (s : State) (r : Reg) (v : Word) : (s.setReg r v).inputFails = s.inputFails := rfl
@[simp] theorem setReg_writesLeft (s : State) (r : Reg) (v : Word) : (s.setReg r v).writesLeft = s.writesLeft := rfl

/-! ### setPc -/

@[simp] theorem setPc_regs (s : State) (v : Word) : (s.setPc v).regs = s.regs := rfl
@[simp] theorem setPc_pc (s : State) (v : Word) : (s.setPc v).pc = v := rfl
@[simp] theorem setPc_cond (s : State) (v : Word) : (s.setPc v).cond = s.cond := rfl
@[simp] theorem setPc_running (s : State) (v : Word) : (s.setPc v).running = s.running := rfl
@[simp] theorem setPc_status (s : State) (v : Word) : (s.setPc v).status = s.status := rfl
@[simp] theorem setPc_mem (s : State) (v : Word) : (s.setPc v).mem = s.mem := rfl
@[simp] theorem setPc_pending (s : State) (v : Word) : (s.setPc v).pending = s.pending := rfl
@[simp] theorem setPc_inq (s : State) (v : Word) : (s.setPc v).inq = s.inq := rfl
@[simp] theorem setPc_out (s : State) (v : Word) : (s.setPc v).out = s.out := rfl
@[simp] theorem setPc_schedule (s : State) (v : Word) : (s.setPc v).schedule = s.schedule := rfl
@[simp] theorem setPc_oracleTurn (s : State) (v : Word) : (s.setPc v).oracleTurn = s.oracleTurn := rfl
@[simp] theorem setPc_inputFails (s : State) (v : Word) : (s.setPc v).inputFails = s.inputFails := rfl
@[simp] theorem setPc_writesLeft (s : State) (v : Word) : (s.setPc v).writesLeft = s.writesLeft := rfl
@[simp] theorem setPc_reg (s : State) (v : Word) (q : Reg) : (s.setPc v).reg q = s.reg q := rfl

/-! ### setCond -/

@[simp] theorem setCond_regs (s : State) (v : Word) : (s.setCond v).regs = s.regs := rfl
@[simp] theorem setCond_pc (s : State) (v : Word) : (s.setCond v).pc = s.pc := rfl
@[simp] theorem setCond_cond (s : State) (v : Word) : (s.setCond v).cond = v := rfl
@[simp] theorem setCond_running (s : State) (v : Word) : (s.setCond v).running = s.running := rfl
@[simp] theorem setCond_status (s : State) (v : Word) : (s.setCond v).status = s.status := rfl
@[simp] theorem setCond_mem (s : State) (v : Word) : (s.setCond v).mem = s.mem := rfl
@[simp] theorem setCond_pending (s : State) (v : Word) : (s.setCond v).pending = s.pending := rfl
@[simp] theorem setCond_inq (s : State) (v : Word) : (s.setCond v).inq = s.inq := rfl
@[simp] theorem setCond_out (s : State) (v : Word) : (s.setCond v).out = s.out := rfl
@[simp] theorem setCond_schedule (s : State) (v : Word) : (s.setCond v).schedule = s.schedule := rfl
@[simp] theorem setCond_oracleTurn (s : State) (v : Word) : (s.setCond v).oracleTurn = s.oracleTurn := rfl
@[simp] theorem setCond_inputFails (s : State) (v : Word) : (s.setCond v).inputFails = s.inputFails := rfl
@[simp] theorem setCond_writesLeft (s : State) (v : Word) : (s.setCond v).writesLeft = s.writesLeft := rfl
@[simp] theorem setCond_reg (s : State) (v : Word) (q : Reg) : (s.setCond v).reg q = s.reg q := rfl

/-! ### setMem -/

@[simp] theorem setMem_regs (s : State) (m : Memory) : (s.setMem m).regs = s.regs := rfl
@[simp] theorem setMem_pc (s : State) (m : Memory) : (s.setMem m).pc = s.pc := rfl
@[simp] theorem setMem_cond (s : State) (m : Memory) : (s.setMem m).cond = s.cond := rfl
@[simp] theorem setMem_running (s : State) (m : Memory) : (s.setMem m).running = s.running := rfl
@[simp] theorem setMem_status (s : State) (m : Memory) : (s.setMem m).status = s.status := rfl
@[simp] theorem setMem_mem (s : State) (m : Memory) : (s.setMem m).mem = m := rfl
@[simp] theorem setMem_pending (s : State) (m : Memory) : (s.setMem m).pending = s.pending := rfl
@[simp] theorem setMem_inq (s : State) (m : Memory) : (s.setMem m).inq = s.inq := rfl
@[simp] theorem setMem_out (s : State) (m : Memory) : (s.setMem m).out = s.out := rfl
@[simp] theorem setMem_schedule (s : State) (m : Memory) : (s.setMem m).schedule = s.schedule := rfl
@[simp] theorem setMem_oracleTurn (s : State) (m : Memory) : (s.setMem m).oracleTurn = s.oracleTurn := rfl
@[simp] theorem setMem_inputFails (s : State) (m : Memory) : (s.setMem m).inputFails = s.inputFails := rfl
@[simp] theorem setMem_writesLeft (s : State) (m : Memory) : (s.setMem m).writesLeft = s.writesLeft := rfl
@[simp] theorem setMem_reg (s : State) (m : Memory) (q : Reg) : (s.setMem m).reg q = s.reg q := rfl

/-! ### setStatus -/

@[simp] theorem setStatus_regs (s : State) (v : RunStatus) : (s.setStatus v).regs = s.regs := rfl
@[simp] theorem setStatus_pc (s : State) (v : RunStatus) : (s.setStatus v).pc = s.pc := rfl
@[simp] theorem setStatus_cond (s : State) (v : RunStatus) : (s.setStatus v).cond = s.cond := rfl
@[simp] theorem setStatus_running (s : State) (v : RunStatus) : (s.setStatus v).running = s.running := rfl
@[simp] theorem setStatus_status (s : State) (v : RunStatus) : (s.setStatus v).status = v := rfl
@[simp] theorem setStatus_mem (s : State) (v : RunStatus) : (s.setStatus v).mem = s.mem := rfl
@[simp] theorem setStatus_pending (s : State) (v : RunStatus) : (s.setStatus v).pending = s.pending := rfl
@[simp] theorem setStatus_inq (s : State) (v : RunStatus) : (s.setStatus v).inq = s.inq := rfl
@[simp] theorem setStatus_out (s : State) (v : RunStatus) : (s.setStatus v).out = s.out := rfl
@[simp] theorem setStatus_schedule (s : State) (v : RunStatus) : (s.setStatus v).schedule = s.schedule := rfl
@[simp] theorem setStatus_oracleTurn (s : State) (v : RunStatus) : (s.setStatus v).oracleTurn = s.oracleTurn := rfl
@[simp] theorem setStatus_inputFails (s : State) (v : RunStatus) : (s.setStatus v).inputFails = s.inputFails := rfl
@[simp] theorem setStatus_writesLeft (s : State) (v : RunStatus) : (s.setStatus v).writesLeft = s.writesLeft := rfl
@[simp] theorem setStatus_reg (s : State) (v : RunStatus) (q : Reg) : (s.setStatus v).reg q = s.reg q := rfl

/-! ### setPending -/

@[simp] theorem setPending_regs (s : State) (p : Option Pending) : (s.setPending p).regs = s.regs := rfl
@[simp] theorem setPending_pc (s : State) (p : Option Pending) : (s.setPending p).pc = s.pc := rfl
@[simp] theorem setPending_cond (s : State) (p : Option Pending) : (s.setPending p).cond = s.cond := rfl
@[simp] theorem setPending_running (s : State) (p : Option Pending) : (s.setPending p).running = s.running := rfl
@[simp] theorem setPending_status (s : State) (p : Option Pending) : (s.setPending p).status = s.status := rfl
@[simp] theorem setPending_mem (s : State) (p : Option Pending) : (s.setPending p).mem = s.mem := rfl
@[simp] theorem setPending_pending (s : State) (p : Option Pending) : (s.setPending p).pending = p := rfl
@[simp] theorem setPending_inq (s : State) (p : Option Pending) : (s.setPending p).inq = s.inq := rfl
@[simp] theorem setPending_out (s : State) (p : Option Pending) : (s.setPending p).out = s.out := rfl
@[simp] theorem setPending_schedule (s : State) (p : Option Pending) : (s.setPending p).schedule = s.schedule := rfl
@[simp] theorem setPending_oracleTurn (s : State) (p : Option Pending) : (s.setPending p).oracleTurn = s.oracleTurn := rfl
@[simp] theorem setPending_inputFails (s : State) (p : Option Pending) : (s.setPending p).inputFails = s.inputFails := rfl
@[simp] theorem setPending_writesLeft (s : State) (p : Option Pending) : (s.setPending p).writesLeft = s.writesLeft := rfl
@[simp] theorem setPending_reg (s : State) (p : Option Pending) (q : Reg) : (s.setPending p).reg q = s.reg q := rfl

/-! ### setInq -/

@[simp] theorem setInq_regs (s : State) (l : List Byte) : (s.setInq l).regs = s.regs := rfl
@[simp] theorem setInq_pc (s : State) (l : List Byte) : (s.setInq l).pc = s.pc := rfl
@[simp] theorem setInq_cond (s : State) (l : List Byte) : (s.setInq l).cond = s.cond := rfl
@[simp] theorem setInq_running (s : State) (l : List Byte) : (s.setInq l).running = s.running := rfl
@[simp] theorem setInq_status (s : State) (l : List Byte) : (s.setInq l).status = s.status := rfl
@[simp] theorem setInq_mem (s : State) (l : List Byte) : (s.setInq l).mem = s.mem := rfl
@[simp] theorem setInq_pending (s : State) (l : List Byte) : (s.setInq l).pending = s.pending := rfl
@[simp] theorem setInq_inq (s : State) (l : List Byte) : (s.setInq l).inq = l := rfl
@[simp] theorem setInq_out (s : State) (l : List Byte) : (s.setInq l).out = s.out := rfl
@[simp] theorem setInq_schedule (s : State) (l : List Byte) : (s.setInq l).schedule = s.schedule := rfl
@[simp] theorem setInq_oracleTurn (s : State) (l : List Byte) : (s.setInq l).oracleTurn = s.oracleTurn := rfl
@[simp] theorem setInq_inputFails (s : State) (l : List Byte) : (s.setInq l).inputFails = s.inputFails := rfl
@[simp] theorem setInq_writesLeft (s : State) (l : List Byte) : (s.setInq l).writesLeft = s.writesLeft := rfl
@[simp] theorem setInq_reg (s : State) (l : List Byte) (q : Reg) : (s.setInq l).reg q = s.reg q := rfl

/-! ### setOut -/

@[simp] theorem setOut_regs (s : State) (o : List Byte) (l : Option Nat) : (s.setOut o l).regs = s.regs := rfl
@[simp] theorem setOut_pc (s : State) (o : List Byte) (l : Option Nat) : (s.setOut o l).pc = s.pc := rfl
@[simp] theorem setOut_cond (s : State) (o : List Byte) (l : Option Nat) : (s.setOut o l).cond = s.cond := rfl
@[simp] theorem setOut_running (s : State) (o : List Byte) (l : Option Nat) : (s.setOut o l).running = s.running := rfl
@[simp] theorem setOut_status (s : State) (o : List Byte) (l : Option Nat) : (s.setOut o l).status = s.status := rfl
@[simp] theorem setOut_mem (s : State) (o : List Byte) (l : Option Nat) : (s.setOut o l).mem = s.mem := rfl
@[simp] theorem setOut_pending (s : State) (o : List Byte) (l : Option Nat) : (s.setOut o l).pending = s.pending := rfl
@[simp] theorem setOut_inq (s : State) (o : List Byte) (l : Option Nat) : (s.setOut o l).inq = s.inq := rfl
@[simp] theorem setOut_out (s : State) (o : List Byte) (l : Option Nat) : (s.setOut o l).out = o := rfl
@[simp] theorem setOut_schedule (s : State) (o : List Byte) (l : Option Nat) : (s.setOut o l).schedule = s.schedule := rfl
@[simp] theorem setOut_oracleTurn (s : State) (o : List Byte) (l : Option Nat) : (s.setOut o l).oracleTurn = s.oracleTurn := rfl
@[simp] theorem setOut_inputFails (s : State) (o : List Byte) (l : Option Nat) : (s.setOut o l).inputFails = s.inputFails := rfl
@[simp] theorem setOut_writesLeft (s : State) (o : List Byte) (l : Option Nat) : (s.setOut o l).writesLeft = l := rfl
@[simp] theorem setOut_reg (s : State) (o : List Byte) (l : Option Nat) (q : Reg) : (s.setOut o l).reg q = s.reg q := rfl

/-! ### halt -/

@[simp] theorem halt_regs (s : State) : s.halt.regs = s.regs := rfl
@[simp] theorem halt_pc (s : State) : s.halt.pc = s.pc := rfl
@[simp] theorem halt_cond (s : State) : s.halt.cond = s.cond := rfl
@[simp] theorem halt_running (s : State) : s.halt.running = false := rfl
@[simp] theorem halt_status (s : State) : s.halt.status = .halted := rfl
@[simp] theorem halt_mem (s : State) : s.halt.mem = s.mem := rfl
@[simp] theorem halt_pending (s : State) : s.halt.pending = s.pending := rfl
@[simp] theorem halt_inq (s : State) : s.halt.inq = s.inq := rfl
@[simp] theorem halt_out (s : State) : s.halt.out = s.out := rfl
@[simp] theorem halt_schedule (s : State) : s.halt.schedule = s.schedule := rfl
@[simp] theorem halt_oracleTurn (s : State) : s.halt.oracleTurn = s.oracleTurn := rfl
@[simp] theorem halt_inputFails (s : State) : s.halt.inputFails = s.inputFails := rfl
@[simp] theorem halt_writesLeft (s : State) : s.halt.writesLeft = s.writesLeft := rfl
@[simp] theorem halt_reg (s : State) (q : Reg) : s.halt.reg q = s.reg q := rfl

/-! ### The shared compositions of updates -/

/-- R7 <- PC and nothing else. -/
theorem link_eq (s : State) : link s = s.setReg .r7 s.pc := rfl

@[simp] theorem link_reg_r7 (s : State) : (link s).reg .r7 = s.pc := reg_setReg_same _ _ _

@[simp] theorem link_reg_ne (s : State) (q : Reg) (h : q ≠ .r7) : (link s).reg q = s.reg q := reg_setReg_ne _ _ _ _ h

@[simp] theorem link_pc (s : State) : (link s).pc = s.pc := rfl
@[simp] theorem link_cond (s : State) : (link s).cond = s.cond := rfl
@[simp] theorem link_running (s : State) : (link s).running = s.running := rfl
@[simp] theorem link_status (s : State) : (link s).status = s.status := rfl
@[simp] theorem link_mem (s : State) : (link s).mem = s.mem := rfl
@[simp] theorem link_pending (s : State) : (link s).pending = s.pending := rfl
@[simp] theorem link_inq (s : State) : (link s).inq = s.inq := rfl
@[simp] theorem link_out (s : State) : (link s).out = s.out := rfl
@[simp] theorem link_schedule (s : State) : (link s).schedule = s.schedule := rfl
@[simp] theorem link_oracleTurn (s : State) : (link s).oracleTurn = s.oracleTurn := rfl
@[simp] theorem link_inputFails (s : State) : (link s).inputFails = s.inputFails := rfl
@[simp] theorem link_writesLeft (s : State) : (link s).writesLeft = s.writesLeft := rfl

@[simp] theorem writeResult_reg_same (r : Reg) (v : Word) (s : State) : (writeResult r v s).reg r = v :=
  reg_setReg_same _ _ _

@[simp] theorem writeResult_reg_ne (r q : Reg) (v : Word) (s : State) (h : q ≠ r) :
    (writeResult r v s).reg q = s.reg q :=
  reg_setReg_ne _ _ _ _ h

@[simp] theorem writeResult_cond (r : Reg) (v : Word) (s : State) : (writeResult r v s).cond = condOf v := by
  simp [writeResult, setCC]

@[simp] theorem writeResult_pc (r : Reg) (v : Word) (s : State) : (writeResult r v s).pc = s.pc := rfl
@[simp] theorem writeResult_running (r : Reg) (v : Word) (s : State) : (writeResult r v s).running = s.running := rfl
@[simp] theorem writeResult_status (r : Reg) (v : Word) (s : State) : (writeResult r v s).status = s.status := rfl
@[simp] theorem writeResult_mem (r : Reg) (v : Word) (s : State) : (writeResult r v s).mem = s.mem := rfl
@[simp] theorem writeResult_pending (r : Reg) (v : Word) (s : State) : (writeResult r v s).pending = s.pending := rfl
@[simp] theorem writeResult_inq (r : Reg) (v : Word) (s : State) : (writeResult r v s).inq = s.inq := rfl
@[simp] theorem writeResult_out (r : Reg) (v : Word) (s : State) : (writeResult r v s).out = s.out := rfl
@[simp] theorem writeResult_schedule (r : Reg) (v : Word) (s : State) : (writeResult r v s).schedule = s.schedule := rfl
@[simp] theorem writeResult_oracleTurn (r : Reg) (v : Word) (s : State) : (writeResult r v s).oracleTurn = s.oracleTurn := rfl
@[simp] theorem writeResult_inputFails (r : Reg) (v : Word) (s : State) : (writeResult r v s).inputFails = s.inputFails := rfl
@[simp] theorem writeResult_writesLeft (r : Reg) (v : Word) (s : State) : (writeResult r v s).writesLeft = s.writesLeft := rfl

/-- A fault changes the status and nothing else (R278). -/
theorem takeFault_status (k : FaultKind) (s : State) :
    (takeFault k s).status = (match k with | .illegalOpcode => .faultIllegalOpcode | .io => .faultIo) := by cases k <;> rfl

@[simp] theorem takeFault_regs (k : FaultKind) (s : State) : (takeFault k s).regs = s.regs := by cases k <;> rfl
@[simp] theorem takeFault_pc (k : FaultKind) (s : State) : (takeFault k s).pc = s.pc := by cases k <;> rfl
@[simp] theorem takeFault_cond (k : FaultKind) (s : State) : (takeFault k s).cond = s.cond := by cases k <;> rfl
@[simp] theorem takeFault_running (k : FaultKind) (s : State) : (takeFault k s).running = s.running := by cases k <;> rfl
@[simp] theorem takeFault_mem (k : FaultKind) (s : State) : (takeFault k s).mem = s.mem := by cases k <;> rfl
@[simp] theorem takeFault_pending (k : FaultKind) (s : State) : (takeFault k s).pending = s.pending := by cases k <;> rfl
@[simp] theorem takeFault_inq (k : FaultKind) (s : State) : (takeFault k s).inq = s.inq := by cases k <;> rfl
@[simp] theorem takeFault_out (k : FaultKind) (s : State) : (takeFault k s).out = s.out := by cases k <;> rfl
@[simp] theorem takeFault_schedule (k : FaultKind) (s : State) : (takeFault k s).schedule = s.schedule := by cases k <;> rfl
@[simp] theorem takeFault_oracleTurn (k : FaultKind) (s : State) : (takeFault k s).oracleTurn = s.oracleTurn := by cases k <;> rfl
@[simp] theorem takeFault_inputFails (k : FaultKind) (s : State) : (takeFault k s).inputFails = s.inputFails := by cases k <;> rfl
@[simp] theorem takeFault_writesLeft (k : FaultKind) (s : State) : (takeFault k s).writesLeft = s.writesLeft := by cases k <;> rfl
@[simp] theorem takeFault_reg (k : FaultKind) (s : State) (q : Reg) : (takeFault k s).reg q = s.reg q := by cases k <;> rfl
@[simp] theorem takeFault_io_status (s : State) : (takeFault .io s).status = .faultIo := rfl
@[simp] theorem takeFault_illegal_status (s : State) : (takeFault .illegalOpcode s).status = .faultIllegalOpcode := rfl

end Sys2Proof.Machine
end

