-- ==== Sys2Proof/Laws/Channels.lean ====
section
/-!
SUPPORT. What each host operation and each bus operation can do, once: callers cite these and do not unfold the operations.
-/

namespace Sys2Proof.Machine

/-! ### The host's turn -/

/-- The bytes that arrive in the host's turn. -/
def arrivals (s : State) : List Byte :=
  match s.schedule, s.oracleTurn with
  | t :: _, _ => t.arrive
  | [], some n => (Config.hostInput n).arrive
  | [], none => []

/-- Everything the host's turn can do: it appends the arriving bytes at the queue's tail (R41) and changes nothing but the
queue, its own plan and its answer to a blocking read. -/
theorem hostTurn_eq (s : State) : ∃ schedule turn fails,
    hostTurn s =
      { s with inq := s.inq ++ arrivals s, schedule := schedule, oracleTurn := turn, inputFails := fails } := by
  unfold hostTurn arrivals
  cases hs : s.schedule with
  | cons t rest => exact ⟨_, _, _, rfl⟩
  | nil =>
    cases ho : s.oracleTurn with
    | some n => exact ⟨_, _, _, rfl⟩
    | none => exact ⟨s.schedule, s.oracleTurn, s.inputFails, by simp⟩

theorem hostTurn_inq (s : State) : (hostTurn s).inq = s.inq ++ arrivals s := by
  obtain ⟨_, _, _, h⟩ := hostTurn_eq s; rw [h]

@[simp] theorem hostTurn_regs (s : State) : (hostTurn s).regs = s.regs := by
  obtain ⟨_, _, _, h⟩ := hostTurn_eq s; rw [h]
@[simp] theorem hostTurn_reg (s : State) (q : Reg) : (hostTurn s).reg q = s.reg q := by simp [State.reg]
@[simp] theorem hostTurn_pc (s : State) : (hostTurn s).pc = s.pc := by
  obtain ⟨_, _, _, h⟩ := hostTurn_eq s; rw [h]
@[simp] theorem hostTurn_cond (s : State) : (hostTurn s).cond = s.cond := by
  obtain ⟨_, _, _, h⟩ := hostTurn_eq s; rw [h]
@[simp] theorem hostTurn_running (s : State) : (hostTurn s).running = s.running := by
  obtain ⟨_, _, _, h⟩ := hostTurn_eq s; rw [h]
@[simp] theorem hostTurn_status (s : State) : (hostTurn s).status = s.status := by
  obtain ⟨_, _, _, h⟩ := hostTurn_eq s; rw [h]
@[simp] theorem hostTurn_mem (s : State) : (hostTurn s).mem = s.mem := by
  obtain ⟨_, _, _, h⟩ := hostTurn_eq s; rw [h]
@[simp] theorem hostTurn_pending (s : State) : (hostTurn s).pending = s.pending := by
  obtain ⟨_, _, _, h⟩ := hostTurn_eq s; rw [h]
@[simp] theorem hostTurn_out (s : State) : (hostTurn s).out = s.out := by
  obtain ⟨_, _, _, h⟩ := hostTurn_eq s; rw [h]
@[simp] theorem hostTurn_writesLeft (s : State) : (hostTurn s).writesLeft = s.writesLeft := by
  obtain ⟨_, _, _, h⟩ := hostTurn_eq s; rw [h]

/-- With the schedule used up and no oracle to come the host's turn changes nothing. -/
theorem hostTurn_nil (s : State) (h : s.schedule = []) (h' : s.oracleTurn = none) : hostTurn s = s := by
  unfold hostTurn; rw [h, h']

/-! ### Writes -/

theorem setOut_self (s : State) : s.setOut s.out s.writesLeft = s := rfl

theorem setOut_setOut (s : State) (o o' : List Byte) (l l' : Option Nat) :
    (s.setOut o l).setOut o' l' = s.setOut o' l' := rfl

/-- The host takes every byte (R45, R46). -/
theorem hostWriteAll_takes (bs : List Byte) (s : State) (h : HostTakes s bs.length) :
    hostWriteAll bs s = (.ok, s.setOut (s.out ++ bs) (s.writesLeft.map (fun m => m - bs.length))) := by
  induction bs generalizing s with
  | nil =>
    simp only [hostWriteAll, List.append_nil, List.length_nil, Nat.sub_zero, Option.map_id']
    rfl
  | cons b rest ih =>
    unfold hostWriteAll hostWrite
    cases hw : s.writesLeft with
    | none =>
      simp only
      rw [ih _ (by intro m hm; simp at hm)]
      simp [setOut_setOut]
    | some n =>
      have hn := h n hw
      cases n with
      | zero => simp at hn
      | succ n =>
        simp only
        rw [ih _ (by intro m hm; simp at hm hn; omega)]
        simp [setOut_setOut]

/-- The host fails the write after the next `m` (R45, R230): those bytes are in the output. -/
theorem hostWriteAll_fails (bs : List Byte) (s : State) (m : Nat) (hw : s.writesLeft = some m) (h : m < bs.length) :
    hostWriteAll bs s = (.fail, s.setOut (s.out ++ bs.take m) (some 0)) := by
  induction bs generalizing s m with
  | nil => simp at h
  | cons b rest ih =>
    unfold hostWriteAll hostWrite
    rw [hw]
    cases m with
    | zero =>
      simp only [List.take_zero, List.append_nil]
      rw [← hw]
      rfl
    | succ n =>
      simp only
      rw [ih _ n (by simp) (by simpa using h)]
      simp [setOut_setOut]

/-- `writeThen` where the host takes every byte. -/
theorem writeThen_takes (bs : List Byte) (k : State → State) (s : State) (h : HostTakes s bs.length) :
    writeThen bs k s = k (s.setOut (s.out ++ bs) (s.writesLeft.map (fun m => m - bs.length))) := by
  unfold writeThen; rw [hostWriteAll_takes bs s h]

/-- `writeThen` where the host fails the write after the next `m`. -/
theorem writeThen_fails (bs : List Byte) (k : State → State) (s : State) (m : Nat) (hw : s.writesLeft = some m)
    (h : m < bs.length) :
    writeThen bs k s = takeFault .io (s.setOut (s.out ++ bs.take m) (some 0)) := by
  unfold writeThen; rw [hostWriteAll_fails bs s m hw h]

/-- Everything `writeThen` can do: go on after all the bytes, or raise IOFault after some of them. -/
theorem writeThen_cases (bs : List Byte) (k : State → State) (s : State) :
    (HostTakes s bs.length ∧
      writeThen bs k s = k (s.setOut (s.out ++ bs) (s.writesLeft.map (fun m => m - bs.length)))) ∨
    (∃ m, s.writesLeft = some m ∧ m < bs.length ∧
      writeThen bs k s = takeFault .io (s.setOut (s.out ++ bs.take m) (some 0))) := by
  by_cases h : HostTakes s bs.length
  · exact .inl ⟨h, writeThen_takes bs k s h⟩
  · cases hw : s.writesLeft with
    | none => exact absurd (fun m hm => by simp [hw] at hm) h
    | some m =>
      have hm : m < bs.length := by
        refine Nat.lt_of_not_le (fun hle => h (fun n hn => ?_))
        rw [hw] at hn
        cases hn
        exact hle
      exact .inr ⟨m, rfl, hm, writeThen_fails bs k s m hw hm⟩

/-! ### Reads -/

theorem readThen_byte (w : Pending) (k : Byte → State → State) (s : State) (b : Byte) (rest : List Byte)
    (h : s.inq = b :: rest) : readThen w k s = k b ((s.setPending none).setInq rest) := by
  simp [readThen, hostRead, h]

theorem readThen_fail (w : Pending) (k : Byte → State → State) (s : State) (h : s.inq = []) (hf : s.inputFails = true) :
    readThen w k s = takeFault .io (s.setPending none) := by
  simp [readThen, hostRead, h, hf]

theorem readThen_wait (w : Pending) (k : Byte → State → State) (s : State) (h : s.inq = []) (hf : s.inputFails = false) :
    readThen w k s = s.setPending (some w) := by
  simp only [readThen, hostRead, setPending_inq, h, setPending_inputFails, hf]
  rfl

/-- Everything a blocking read can do (R43). -/
theorem readThen_cases (w : Pending) (k : Byte → State → State) (s : State) :
    (∃ b rest, s.inq = b :: rest ∧ readThen w k s = k b ((s.setPending none).setInq rest)) ∨
    (s.inq = [] ∧ s.inputFails = true ∧ readThen w k s = takeFault .io (s.setPending none)) ∨
    (s.inq = [] ∧ s.inputFails = false ∧ readThen w k s = s.setPending (some w)) := by
  cases hq : s.inq with
  | cons b rest => exact .inl ⟨b, rest, rfl, readThen_byte w k s b rest hq⟩
  | nil =>
    cases hf : s.inputFails with
    | true => exact .inr (.inl ⟨rfl, rfl, readThen_fail w k s hq hf⟩)
    | false => exact .inr (.inr ⟨rfl, rfl, readThen_wait w k s hq hf⟩)

/-! ### The bus -/

/-- A bus read anywhere but at KBSR is pure (R73). -/
theorem memRead_ne (a : Word) (s : State) (h : a ≠ Config.kbsr) : memRead a s = (s.mem.read a, s) := by
  simp [memRead, h]

/-- The poll with a byte pending (R62). -/
theorem keyboardPoll_byte (s : State) (b : Byte) (rest : List Byte) (h : s.inq = b :: rest) :
    keyboardPoll s =
      (s.setInq rest).setMem ((s.mem.write Config.kbsr Config.kbsrReady).write Config.kbdr (zext8 b)) := by
  simp [keyboardPoll, hostPoll, h]

/-- The poll with no byte pending (R63). -/
theorem keyboardPoll_none (s : State) (h : s.inq = []) :
    keyboardPoll s = s.setMem (s.mem.write Config.kbsr 0x0000#16) := by
  simp [keyboardPoll, hostPoll, h]

/-- Everything a poll can do. -/
theorem keyboardPoll_cases (s : State) :
    (∃ b rest, s.inq = b :: rest ∧ keyboardPoll s =
      (s.setInq rest).setMem ((s.mem.write Config.kbsr Config.kbsrReady).write Config.kbdr (zext8 b))) ∨
    (s.inq = [] ∧ keyboardPoll s = s.setMem (s.mem.write Config.kbsr 0x0000#16)) := by
  cases hq : s.inq with
  | cons b rest => exact .inl ⟨b, rest, rfl, keyboardPoll_byte s b rest hq⟩
  | nil => exact .inr ⟨rfl, keyboardPoll_none s hq⟩

/-- Everything a bus read can do: nothing but at KBSR, where it polls (R61). -/
theorem memRead_cases (a : Word) (s : State) :
    (a ≠ Config.kbsr ∧ memRead a s = (s.mem.read a, s)) ∨
    (a = Config.kbsr ∧ memRead a s = ((keyboardPoll s).mem.read Config.kbsr, keyboardPoll s)) := by
  by_cases h : a = Config.kbsr
  · exact .inr ⟨h, by simp [memRead, h]⟩
  · exact .inl ⟨h, memRead_ne a s h⟩

@[simp] theorem memRead_regs (a : Word) (s : State) : (memRead a s).2.regs = s.regs := by
  unfold memRead keyboardPoll hostPoll; split <;> (try cases s.inq) <;> rfl
@[simp] theorem memRead_reg (a : Word) (s : State) (q : Reg) : (memRead a s).2.reg q = s.reg q := by
  simp [State.reg]
@[simp] theorem memRead_pc (a : Word) (s : State) : (memRead a s).2.pc = s.pc := by
  unfold memRead keyboardPoll hostPoll; split <;> (try cases s.inq) <;> rfl
@[simp] theorem memRead_cond (a : Word) (s : State) : (memRead a s).2.cond = s.cond := by
  unfold memRead keyboardPoll hostPoll; split <;> (try cases s.inq) <;> rfl
@[simp] theorem memRead_running (a : Word) (s : State) : (memRead a s).2.running = s.running := by
  unfold memRead keyboardPoll hostPoll; split <;> (try cases s.inq) <;> rfl
@[simp] theorem memRead_status (a : Word) (s : State) : (memRead a s).2.status = s.status := by
  unfold memRead keyboardPoll hostPoll; split <;> (try cases s.inq) <;> rfl
@[simp] theorem memRead_pending (a : Word) (s : State) : (memRead a s).2.pending = s.pending := by
  unfold memRead keyboardPoll hostPoll; split <;> (try cases s.inq) <;> rfl
@[simp] theorem memRead_out (a : Word) (s : State) : (memRead a s).2.out = s.out := by
  unfold memRead keyboardPoll hostPoll; split <;> (try cases s.inq) <;> rfl
@[simp] theorem memRead_writesLeft (a : Word) (s : State) : (memRead a s).2.writesLeft = s.writesLeft := by
  unfold memRead keyboardPoll hostPoll; split <;> (try cases s.inq) <;> rfl
@[simp] theorem memRead_schedule (a : Word) (s : State) : (memRead a s).2.schedule = s.schedule := by
  unfold memRead keyboardPoll hostPoll; split <;> (try cases s.inq) <;> rfl
@[simp] theorem memRead_oracleTurn (a : Word) (s : State) : (memRead a s).2.oracleTurn = s.oracleTurn := by
  unfold memRead keyboardPoll hostPoll; split <;> (try cases s.inq) <;> rfl
@[simp] theorem memRead_inputFails (a : Word) (s : State) : (memRead a s).2.inputFails = s.inputFails := by
  unfold memRead keyboardPoll hostPoll; split <;> (try cases s.inq) <;> rfl

/-- A bus read takes at most the head byte of the queue (R42). -/
theorem memRead_inq (a : Word) (s : State) :
    (memRead a s).2.inq = s.inq ∨ ∃ b, s.inq = b :: (memRead a s).2.inq := by
  rcases memRead_cases a s with ⟨_, h⟩ | ⟨_, h⟩
  · exact .inl (by rw [h])
  · rcases keyboardPoll_cases s with ⟨b, rest, hq, hp⟩ | ⟨_, hp⟩
    · exact .inr ⟨b, by rw [h, hp]; simpa using hq⟩
    · exact .inl (by rw [h, hp]; simp)

/-- A bus read changes no cell but KBSR and KBDR (R73). -/
theorem memRead_mem (a : Word) (s : State) (c : Word) (h : c ≠ Config.kbsr) (h' : c ≠ Config.kbdr) :
    (memRead a s).2.mem.read c = s.mem.read c := by
  rcases memRead_cases a s with ⟨_, e⟩ | ⟨_, e⟩
  · rw [e]
  · rcases keyboardPoll_cases s with ⟨b, rest, _, hp⟩ | ⟨_, hp⟩
    · rw [e, hp]; simp [Memory.read_write_ne _ _ _ _ h, Memory.read_write_ne _ _ _ _ h']
    · rw [e, hp]; simp [Memory.read_write_ne _ _ _ _ h]

/-- A bus read keeps the memory's canonical form. -/
theorem memRead_wf (a : Word) (s : State) (h : s.mem.wf = true) : (memRead a s).2.mem.wf = true := by
  rcases memRead_cases a s with ⟨_, e⟩ | ⟨_, e⟩
  · rw [e]; exact h
  · rcases keyboardPoll_cases s with ⟨b, rest, _, hp⟩ | ⟨_, hp⟩ <;> rw [e, hp]
    · exact Memory.wf_write _ _ _ (Memory.wf_write _ _ _ h)
    · exact Memory.wf_write s.mem Config.kbsr 0x0000#16 h

/-- A bus write keeps the memory's canonical form. -/
theorem memWrite_wf (a v : Word) (s : State) (h : s.mem.wf = true) : (memWrite a v s).mem.wf = true :=
  Memory.wf_write _ _ _ h

/-- A bus write changes its cell and no other (R64). -/
@[simp] theorem memWrite_read (a v b : Word) (s : State) :
    (memWrite a v s).mem.read b = if b = a then v else s.mem.read b := Memory.read_write _ _ _ _

@[simp] theorem memWrite_regs (a v : Word) (s : State) : (memWrite a v s).regs = s.regs := rfl
@[simp] theorem memWrite_reg (a v : Word) (s : State) (q : Reg) : (memWrite a v s).reg q = s.reg q := rfl
@[simp] theorem memWrite_pc (a v : Word) (s : State) : (memWrite a v s).pc = s.pc := rfl
@[simp] theorem memWrite_cond (a v : Word) (s : State) : (memWrite a v s).cond = s.cond := rfl
@[simp] theorem memWrite_running (a v : Word) (s : State) : (memWrite a v s).running = s.running := rfl
@[simp] theorem memWrite_status (a v : Word) (s : State) : (memWrite a v s).status = s.status := rfl
@[simp] theorem memWrite_pending (a v : Word) (s : State) : (memWrite a v s).pending = s.pending := rfl
@[simp] theorem memWrite_inq (a v : Word) (s : State) : (memWrite a v s).inq = s.inq := rfl
@[simp] theorem memWrite_out (a v : Word) (s : State) : (memWrite a v s).out = s.out := rfl
@[simp] theorem memWrite_schedule (a v : Word) (s : State) : (memWrite a v s).schedule = s.schedule := rfl
@[simp] theorem memWrite_oracleTurn (a v : Word) (s : State) : (memWrite a v s).oracleTurn = s.oracleTurn := rfl
@[simp] theorem memWrite_inputFails (a v : Word) (s : State) : (memWrite a v s).inputFails = s.inputFails := rfl
@[simp] theorem memWrite_writesLeft (a v : Word) (s : State) : (memWrite a v s).writesLeft = s.writesLeft := rfl

/-! ### Fetch -/

/-- The fetch: the word of the bus read at PC, and PC advanced (R26, R100). -/
theorem fetch_eq (s : State) : fetch s = ((memRead s.pc s).1, (memRead s.pc s).2.setPc (s.pc + 1#16)) := by
  simp [fetch]

end Sys2Proof.Machine
end

