-- ==== Sys2Proof/Laws/Decode.lean ====
section
/-!
SUPPORT. Decoding and encoding: the fields of a word laid out by a format, and for each primary row of spec/30_encoding.md
R126 what the decoder answers on every word of the row. Callers cite the row lemmas and do not unfold `decode`.
-/

namespace Sys2Proof

/-! ### Registers -/

@[simp] theorem regOfBits_regToBits (r : Reg) : regOfBits (regToBits r) = r := by cases r <;> rfl

@[simp] theorem regToBits_regOfBits (b : BitVec 3) : regToBits (regOfBits b) = b := by revert b; decide

/-- The last code of the opcode map (R104). -/
theorem opcodeOfBits_trap : opcodeOfBits 0b1111#4 = .trap := by decide

/-- The opcode map reads back: no two codes have one opcode. -/
theorem opcodeOfBits_inj (b c : BitVec 4) (h : opcodeOfBits b = opcodeOfBits c) : b = c := by
  revert b c; decide

/-- The code of an opcode (R104). -/
def codeOf : Opcode → BitVec 4
  | .br => 0b0000#4
  | .add => 0b0001#4
  | .ld => 0b0010#4
  | .st => 0b0011#4
  | .jsr => 0b0100#4
  | .and => 0b0101#4
  | .ldr => 0b0110#4
  | .str => 0b0111#4
  | .rti => 0b1000#4
  | .not => 0b1001#4
  | .ldi => 0b1010#4
  | .sti => 0b1011#4
  | .jmp => 0b1100#4
  | .res => 0b1101#4
  | .lea => 0b1110#4
  | .trap => 0b1111#4

/-- The opcode map and its codes are inverse (R104). -/
theorem codeOf_opcodeOfBits (b : BitVec 4) : codeOf (opcodeOfBits b) = b := by revert b; decide

theorem bits_of_opcode {b : BitVec 4} {o : Opcode} (h : opcodeOfBits b = o) : b = codeOf o := by
  rw [← h, codeOf_opcodeOfBits]

/-! ### Fields of a word that a mask and a match fix -/

theorem opcodeBits_of_mask (w m p : Word) (hm : opcodeBits m = 0b1111#4) (h : w &&& m = p) :
    opcodeBits w = opcodeBits p := by
  have e : opcodeBits (w &&& m) = opcodeBits w &&& opcodeBits m := by
    simp [opcodeBits, BitVec.extractLsb'_and]
  rw [h, hm] at e
  rw [e]
  generalize opcodeBits w = b
  revert b; decide

theorem bit_of_mask (w m p : Word) (i : Nat) (hm : m.getLsbD i = true) (h : w &&& m = p) :
    w.getLsbD i = p.getLsbD i := by
  rw [← h, BitVec.getLsbD_and, hm, Bool.and_true]

/-- The top four bits alone (R103). -/
theorem and_opcode_mask (w : Word) : w &&& 0xF000#16 = opcodeBits w ++ 0#12 := by
  apply BitVec.eq_of_getLsbD_eq
  intro i hi
  simp only [opcodeBits, BitVec.getLsbD_and, BitVec.getLsbD_append, BitVec.getLsbD_extractLsb']
  interval_cases i <;> simp

/-- The top four bits and bit 5 (R118). -/
theorem and_imm_mask (w : Word) :
    w &&& 0xF020#16 = opcodeBits w ++ 0#6 ++ BitVec.ofBool (immFlag w) ++ 0#5 := by
  apply BitVec.eq_of_getLsbD_eq
  intro i hi
  simp only [opcodeBits, immFlag, BitVec.getLsbD_and, BitVec.getLsbD_append, BitVec.getLsbD_extractLsb',
    BitVec.getLsbD_ofBool]
  interval_cases i <;> simp

/-- The top four bits and bit 11 (R104). -/
theorem and_long_mask (w : Word) :
    w &&& 0xF800#16 = opcodeBits w ++ BitVec.ofBool (longFlag w) ++ 0#11 := by
  apply BitVec.eq_of_getLsbD_eq
  intro i hi
  simp only [opcodeBits, longFlag, BitVec.getLsbD_and, BitVec.getLsbD_append, BitVec.getLsbD_extractLsb',
    BitVec.getLsbD_ofBool]
  interval_cases i <;> simp

/-! ### What the decoder answers, row by row (R126) -/

theorem decodePrimary_br (w : Word) (h : w &&& 0xF000#16 = 0x0000#16) :
    decodePrimary w = .br (field11to9 w) (pcOffset9Bits w) := by
  have ho : opcodeBits w = 0#4 := opcodeBits_of_mask w _ _ (by decide) h
  have hc : opcodeOfBits 0#4 = .br := by decide
  simp [decodePrimary, ho, hc]

theorem decode_br (w : Word) (h : w &&& 0xF000#16 = 0x0000#16) :
    decode w = Instr.canonical (.br (field11to9 w) (pcOffset9Bits w)) := by
  rw [decode, decodePrimary_br w h]

theorem decodePrimary_ld (w : Word) (h : w &&& 0xF000#16 = 0x2000#16) :
    decodePrimary w = .ld (regOfBits (field11to9 w)) (pcOffset9Bits w) := by
  have ho : opcodeBits w = 2#4 := opcodeBits_of_mask w _ _ (by decide) h
  have hc : opcodeOfBits 2#4 = .ld := by decide
  simp [decodePrimary, ho, hc]

theorem decode_ld (w : Word) (h : w &&& 0xF000#16 = 0x2000#16) :
    decode w = .ld (regOfBits (field11to9 w)) (pcOffset9Bits w) := by
  rw [decode, decodePrimary_ld w h]; rfl

theorem decodePrimary_st (w : Word) (h : w &&& 0xF000#16 = 0x3000#16) :
    decodePrimary w = .st (regOfBits (field11to9 w)) (pcOffset9Bits w) := by
  have ho : opcodeBits w = 3#4 := opcodeBits_of_mask w _ _ (by decide) h
  have hc : opcodeOfBits 3#4 = .st := by decide
  simp [decodePrimary, ho, hc]

theorem decode_st (w : Word) (h : w &&& 0xF000#16 = 0x3000#16) :
    decode w = .st (regOfBits (field11to9 w)) (pcOffset9Bits w) := by
  rw [decode, decodePrimary_st w h]; rfl

theorem decodePrimary_ldr (w : Word) (h : w &&& 0xF000#16 = 0x6000#16) :
    decodePrimary w = .ldr (regOfBits (field11to9 w)) (regOfBits (field8to6 w)) (offset6Bits w) := by
  have ho : opcodeBits w = 6#4 := opcodeBits_of_mask w _ _ (by decide) h
  have hc : opcodeOfBits 6#4 = .ldr := by decide
  simp [decodePrimary, ho, hc]

theorem decode_ldr (w : Word) (h : w &&& 0xF000#16 = 0x6000#16) :
    decode w = .ldr (regOfBits (field11to9 w)) (regOfBits (field8to6 w)) (offset6Bits w) := by
  rw [decode, decodePrimary_ldr w h]; rfl

theorem decodePrimary_str (w : Word) (h : w &&& 0xF000#16 = 0x7000#16) :
    decodePrimary w = .str (regOfBits (field11to9 w)) (regOfBits (field8to6 w)) (offset6Bits w) := by
  have ho : opcodeBits w = 7#4 := opcodeBits_of_mask w _ _ (by decide) h
  have hc : opcodeOfBits 7#4 = .str := by decide
  simp [decodePrimary, ho, hc]

theorem decode_str (w : Word) (h : w &&& 0xF000#16 = 0x7000#16) :
    decode w = .str (regOfBits (field11to9 w)) (regOfBits (field8to6 w)) (offset6Bits w) := by
  rw [decode, decodePrimary_str w h]; rfl

theorem decodePrimary_rti (w : Word) (h : w &&& 0xF000#16 = 0x8000#16) :
    decodePrimary w = .rti := by
  have ho : opcodeBits w = 8#4 := opcodeBits_of_mask w _ _ (by decide) h
  have hc : opcodeOfBits 8#4 = .rti := by decide
  simp [decodePrimary, ho, hc]

theorem decode_rti (w : Word) (h : w &&& 0xF000#16 = 0x8000#16) :
    decode w = .rti := by
  rw [decode, decodePrimary_rti w h]; rfl

theorem decodePrimary_not (w : Word) (h : w &&& 0xF000#16 = 0x9000#16) :
    decodePrimary w = .not (regOfBits (field11to9 w)) (regOfBits (field8to6 w)) := by
  have ho : opcodeBits w = 9#4 := opcodeBits_of_mask w _ _ (by decide) h
  have hc : opcodeOfBits 9#4 = .not := by decide
  simp [decodePrimary, ho, hc]

theorem decode_not (w : Word) (h : w &&& 0xF000#16 = 0x9000#16) :
    decode w = .not (regOfBits (field11to9 w)) (regOfBits (field8to6 w)) := by
  rw [decode, decodePrimary_not w h]; rfl

theorem decodePrimary_ldi (w : Word) (h : w &&& 0xF000#16 = 0xA000#16) :
    decodePrimary w = .ldi (regOfBits (field11to9 w)) (pcOffset9Bits w) := by
  have ho : opcodeBits w = 10#4 := opcodeBits_of_mask w _ _ (by decide) h
  have hc : opcodeOfBits 10#4 = .ldi := by decide
  simp [decodePrimary, ho, hc]

theorem decode_ldi (w : Word) (h : w &&& 0xF000#16 = 0xA000#16) :
    decode w = .ldi (regOfBits (field11to9 w)) (pcOffset9Bits w) := by
  rw [decode, decodePrimary_ldi w h]; rfl

theorem decodePrimary_sti (w : Word) (h : w &&& 0xF000#16 = 0xB000#16) :
    decodePrimary w = .sti (regOfBits (field11to9 w)) (pcOffset9Bits w) := by
  have ho : opcodeBits w = 11#4 := opcodeBits_of_mask w _ _ (by decide) h
  have hc : opcodeOfBits 11#4 = .sti := by decide
  simp [decodePrimary, ho, hc]

theorem decode_sti (w : Word) (h : w &&& 0xF000#16 = 0xB000#16) :
    decode w = .sti (regOfBits (field11to9 w)) (pcOffset9Bits w) := by
  rw [decode, decodePrimary_sti w h]; rfl

theorem decodePrimary_jmp (w : Word) (h : w &&& 0xF000#16 = 0xC000#16) :
    decodePrimary w = .jmp (regOfBits (field8to6 w)) := by
  have ho : opcodeBits w = 12#4 := opcodeBits_of_mask w _ _ (by decide) h
  have hc : opcodeOfBits 12#4 = .jmp := by decide
  simp [decodePrimary, ho, hc]

theorem decode_jmp (w : Word) (h : w &&& 0xF000#16 = 0xC000#16) :
    decode w = Instr.canonical (.jmp (regOfBits (field8to6 w))) := by
  rw [decode, decodePrimary_jmp w h]

theorem decodePrimary_res (w : Word) (h : w &&& 0xF000#16 = 0xD000#16) :
    decodePrimary w = .res := by
  have ho : opcodeBits w = 13#4 := opcodeBits_of_mask w _ _ (by decide) h
  have hc : opcodeOfBits 13#4 = .res := by decide
  simp [decodePrimary, ho, hc]

theorem decode_res (w : Word) (h : w &&& 0xF000#16 = 0xD000#16) :
    decode w = .res := by
  rw [decode, decodePrimary_res w h]; rfl

theorem decodePrimary_lea (w : Word) (h : w &&& 0xF000#16 = 0xE000#16) :
    decodePrimary w = .lea (regOfBits (field11to9 w)) (pcOffset9Bits w) := by
  have ho : opcodeBits w = 14#4 := opcodeBits_of_mask w _ _ (by decide) h
  have hc : opcodeOfBits 14#4 = .lea := by decide
  simp [decodePrimary, ho, hc]

theorem decode_lea (w : Word) (h : w &&& 0xF000#16 = 0xE000#16) :
    decode w = .lea (regOfBits (field11to9 w)) (pcOffset9Bits w) := by
  rw [decode, decodePrimary_lea w h]; rfl

theorem decodePrimary_trap (w : Word) (h : w &&& 0xF000#16 = 0xF000#16) :
    decodePrimary w = .trap (trapvect8Bits w) := by
  have ho : opcodeBits w = 15#4 := opcodeBits_of_mask w _ _ (by decide) h
  have hc : opcodeOfBits 15#4 = .trap := by decide
  simp [decodePrimary, ho, hc]

theorem decode_trap (w : Word) (h : w &&& 0xF000#16 = 0xF000#16) :
    decode w = Instr.canonical (.trap (trapvect8Bits w)) := by
  rw [decode, decodePrimary_trap w h]

theorem decodePrimary_addReg (w : Word) (h : w &&& 0xF020#16 = 0x1000#16) :
    decodePrimary w = .addReg (regOfBits (field11to9 w)) (regOfBits (field8to6 w)) (regOfBits (field2to0 w)) := by
  have ho : opcodeBits w = 1#4 := opcodeBits_of_mask w _ _ (by decide) h
  have hc : opcodeOfBits 1#4 = .add := by decide
  have hb : immFlag w = false := bit_of_mask w _ _ 5 (by decide) h
  simp [decodePrimary, ho, hc, hb]

theorem decode_addReg (w : Word) (h : w &&& 0xF020#16 = 0x1000#16) :
    decode w = .addReg (regOfBits (field11to9 w)) (regOfBits (field8to6 w)) (regOfBits (field2to0 w)) := by
  rw [decode, decodePrimary_addReg w h]; rfl

theorem decodePrimary_addImm (w : Word) (h : w &&& 0xF020#16 = 0x1020#16) :
    decodePrimary w = .addImm (regOfBits (field11to9 w)) (regOfBits (field8to6 w)) (imm5Bits w) := by
  have ho : opcodeBits w = 1#4 := opcodeBits_of_mask w _ _ (by decide) h
  have hc : opcodeOfBits 1#4 = .add := by decide
  have hb : immFlag w = true := bit_of_mask w _ _ 5 (by decide) h
  simp [decodePrimary, ho, hc, hb]

theorem decode_addImm (w : Word) (h : w &&& 0xF020#16 = 0x1020#16) :
    decode w = .addImm (regOfBits (field11to9 w)) (regOfBits (field8to6 w)) (imm5Bits w) := by
  rw [decode, decodePrimary_addImm w h]; rfl

theorem decodePrimary_andReg (w : Word) (h : w &&& 0xF020#16 = 0x5000#16) :
    decodePrimary w = .andReg (regOfBits (field11to9 w)) (regOfBits (field8to6 w)) (regOfBits (field2to0 w)) := by
  have ho : opcodeBits w = 5#4 := opcodeBits_of_mask w _ _ (by decide) h
  have hc : opcodeOfBits 5#4 = .and := by decide
  have hb : immFlag w = false := bit_of_mask w _ _ 5 (by decide) h
  simp [decodePrimary, ho, hc, hb]

theorem decode_andReg (w : Word) (h : w &&& 0xF020#16 = 0x5000#16) :
    decode w = .andReg (regOfBits (field11to9 w)) (regOfBits (field8to6 w)) (regOfBits (field2to0 w)) := by
  rw [decode, decodePrimary_andReg w h]; rfl

theorem decodePrimary_andImm (w : Word) (h : w &&& 0xF020#16 = 0x5020#16) :
    decodePrimary w = .andImm (regOfBits (field11to9 w)) (regOfBits (field8to6 w)) (imm5Bits w) := by
  have ho : opcodeBits w = 5#4 := opcodeBits_of_mask w _ _ (by decide) h
  have hc : opcodeOfBits 5#4 = .and := by decide
  have hb : immFlag w = true := bit_of_mask w _ _ 5 (by decide) h
  simp [decodePrimary, ho, hc, hb]

theorem decode_andImm (w : Word) (h : w &&& 0xF020#16 = 0x5020#16) :
    decode w = .andImm (regOfBits (field11to9 w)) (regOfBits (field8to6 w)) (imm5Bits w) := by
  rw [decode, decodePrimary_andImm w h]; rfl

theorem decodePrimary_jsrr (w : Word) (h : w &&& 0xF800#16 = 0x4000#16) :
    decodePrimary w = .jsrr (regOfBits (field8to6 w)) := by
  have ho : opcodeBits w = 4#4 := opcodeBits_of_mask w _ _ (by decide) h
  have hc : opcodeOfBits 4#4 = .jsr := by decide
  have hb : longFlag w = false := bit_of_mask w _ _ 11 (by decide) h
  simp [decodePrimary, ho, hc, hb]

theorem decode_jsrr (w : Word) (h : w &&& 0xF800#16 = 0x4000#16) :
    decode w = .jsrr (regOfBits (field8to6 w)) := by
  rw [decode, decodePrimary_jsrr w h]; rfl

theorem decodePrimary_jsr (w : Word) (h : w &&& 0xF800#16 = 0x4800#16) :
    decodePrimary w = .jsr (pcOffset11Bits w) := by
  have ho : opcodeBits w = 4#4 := opcodeBits_of_mask w _ _ (by decide) h
  have hc : opcodeOfBits 4#4 = .jsr := by decide
  have hb : longFlag w = true := bit_of_mask w _ _ 11 (by decide) h
  simp [decodePrimary, ho, hc, hb]

theorem decode_jsr (w : Word) (h : w &&& 0xF800#16 = 0x4800#16) :
    decode w = .jsr (pcOffset11Bits w) := by
  rw [decode, decodePrimary_jsr w h]; rfl

/-- The primary row of an instruction does not depend on which of its names it has. -/
@[simp] theorem row_canonical (i : Instr) : i.canonical.row = i.row := by
  cases i with
  | br nzp off => simp only [Instr.canonical]; split <;> rfl
  | jmp base => simp only [Instr.canonical]; split <;> rfl
  | trap v => simp only [Instr.canonical, nameOfVector]; repeat (first | rfl | split)
  | trapUnknown v => simp only [Instr.canonical, nameOfVector]; repeat (first | rfl | split)
  | _ => rfl

/-- The bits an instruction's format does not name do not depend on which of its names it has. -/
@[simp] theorem ignoredBits_canonical (i : Instr) : i.canonical.ignoredBits = i.ignoredBits := by
  cases i with
  | br nzp off => simp only [Instr.canonical]; split <;> rfl
  | jmp base => simp only [Instr.canonical]; split <;> rfl
  | trap v => simp only [Instr.canonical, nameOfVector]; repeat (first | rfl | split)
  | trapUnknown v => simp only [Instr.canonical, nameOfVector]; repeat (first | rfl | split)
  | _ => rfl

/-- A well-formed term has its most special name already. -/
theorem canonical_of_wf {i : Instr} (h : i.wf = true) : i.canonical = i := by
  cases i with
  | br nzp off => simpa [Instr.canonical, Instr.wf] using h
  | jmp base => simpa [Instr.canonical, Instr.wf] using h
  | trap v => simp [Instr.wf] at h
  | trapUnknown v =>
    simp only [Instr.wf, isServiceVector, Bool.not_eq_true', Bool.or_eq_false_iff, beq_eq_false_iff_ne] at h
    simp [Instr.canonical, nameOfVector, h]
  | _ => rfl

/-- The most special name is a well-formed term. -/
theorem canonical_wf (i : Instr) : i.canonical.wf = true := by
  have hv : ∀ v, (nameOfVector v).wf = true := by
    intro v
    unfold nameOfVector
    repeat' split
    all_goals first | rfl | simp_all [Instr.wf, isServiceVector]
  cases i with
  | br nzp off => simp only [Instr.canonical]; split <;> simp_all [Instr.wf]
  | jmp base => simp only [Instr.canonical]; split <;> simp_all [Instr.wf]
  | trap v => exact hv v
  | trapUnknown v => exact hv v
  | _ => rfl

/-- The most special name has the same word. -/
theorem encode_canonical (i : Instr) : encode i.canonical = encode i := by
  have hv : ∀ v, encode (nameOfVector v) = encodeTrap v := by
    intro v
    unfold nameOfVector
    repeat' split
    all_goals first | (rename_i h; rw [h]; rfl) | rfl
  cases i with
  | br nzp off => simp only [Instr.canonical]; split <;> simp_all [encode]
  | jmp base => simp only [Instr.canonical]; split <;> simp_all [encode]
  | trap v => exact hv v
  | trapUnknown v => exact hv v
  | _ => rfl

/-- The decoder answers with the most special name (R125). -/
theorem decode_canonical (w : Word) : (decode w).canonical = decode w := canonical_of_wf (canonical_wf _)

/-- Every instruction's row is one of the nineteen (R126). -/
theorem row_mem_primaryRows (i : Instr) : i.row ∈ primaryRows := by cases i <;> simp [Instr.row, primaryRows]

/-- A word belongs to the row of the instruction the primary rows find for it (R125). -/
theorem decodePrimary_row_has (w : Word) : (decodePrimary w).row.has w = true := by
  unfold EncRow.has decodePrimary
  split <;> (rename_i ho; have hb := bits_of_opcode ho)
  case h_2 | h_6 =>
    split <;> (rename_i hf; simp only [Instr.row, and_imm_mask, hb, hf]; decide)
  case h_5 =>
    split <;> (rename_i hf; simp only [Instr.row, and_long_mask, hb, hf]; decide)
  all_goals (simp only [Instr.row, and_opcode_mask, hb]; decide)

/-! ### Fields of the words the encoder lays out -/

section Fields
variable (op : BitVec 4) (a b t : BitVec 3) (i : BitVec 5) (o6 : BitVec 6) (v : BitVec 8) (o9 : BitVec 9) (o11 : BitVec 11)

theorem op3r_opcodeBits : opcodeBits (op ++ a ++ b ++ 0b0#1 ++ 0b00#2 ++ t) = op := by
  unfold opcodeBits
  repeat rw [BitVec.extractLsb'_append_eq_of_le (by omega)]
  exact BitVec.extractLsb'_eq_self

theorem op3r_field11to9 : field11to9 (op ++ a ++ b ++ 0b0#1 ++ 0b00#2 ++ t) = a := by
  unfold field11to9
  repeat rw [BitVec.extractLsb'_append_eq_of_le (by omega)]
  rw [BitVec.extractLsb'_append_eq_of_add_le (by omega)]
  exact BitVec.extractLsb'_eq_self

theorem op3r_field8to6 : field8to6 (op ++ a ++ b ++ 0b0#1 ++ 0b00#2 ++ t) = b := by
  unfold field8to6
  repeat rw [BitVec.extractLsb'_append_eq_of_le (by omega)]
  rw [BitVec.extractLsb'_append_eq_of_add_le (by omega)]
  exact BitVec.extractLsb'_eq_self

theorem op3r_field2to0 : field2to0 (op ++ a ++ b ++ 0b0#1 ++ 0b00#2 ++ t) = t := by
  unfold field2to0
  rw [BitVec.extractLsb'_append_eq_of_add_le (by omega)]
  exact BitVec.extractLsb'_eq_self

theorem op3r_immFlag : immFlag (op ++ a ++ b ++ 0b0#1 ++ 0b00#2 ++ t) = false := by
  unfold immFlag
  simp only [BitVec.getLsbD_append]
  rfl

theorem op3i_opcodeBits : opcodeBits (op ++ a ++ b ++ 0b1#1 ++ i) = op := by
  unfold opcodeBits
  repeat rw [BitVec.extractLsb'_append_eq_of_le (by omega)]
  exact BitVec.extractLsb'_eq_self

theorem op3i_field11to9 : field11to9 (op ++ a ++ b ++ 0b1#1 ++ i) = a := by
  unfold field11to9
  repeat rw [BitVec.extractLsb'_append_eq_of_le (by omega)]
  rw [BitVec.extractLsb'_append_eq_of_add_le (by omega)]
  exact BitVec.extractLsb'_eq_self

theorem op3i_field8to6 : field8to6 (op ++ a ++ b ++ 0b1#1 ++ i) = b := by
  unfold field8to6
  repeat rw [BitVec.extractLsb'_append_eq_of_le (by omega)]
  rw [BitVec.extractLsb'_append_eq_of_add_le (by omega)]
  exact BitVec.extractLsb'_eq_self

theorem op3i_imm5Bits : imm5Bits (op ++ a ++ b ++ 0b1#1 ++ i) = i := by
  unfold imm5Bits
  rw [BitVec.extractLsb'_append_eq_of_add_le (by omega)]
  exact BitVec.extractLsb'_eq_self

theorem op3i_immFlag : immFlag (op ++ a ++ b ++ 0b1#1 ++ i) = true := by
  unfold immFlag
  simp only [BitVec.getLsbD_append]
  rfl

theorem pc9_opcodeBits : opcodeBits (op ++ a ++ o9) = op := by
  unfold opcodeBits
  repeat rw [BitVec.extractLsb'_append_eq_of_le (by omega)]
  exact BitVec.extractLsb'_eq_self

theorem pc9_field11to9 : field11to9 (op ++ a ++ o9) = a := by
  unfold field11to9
  repeat rw [BitVec.extractLsb'_append_eq_of_le (by omega)]
  rw [BitVec.extractLsb'_append_eq_of_add_le (by omega)]
  exact BitVec.extractLsb'_eq_self

theorem pc9_pcOffset9Bits : pcOffset9Bits (op ++ a ++ o9) = o9 := by
  unfold pcOffset9Bits
  rw [BitVec.extractLsb'_append_eq_of_add_le (by omega)]
  exact BitVec.extractLsb'_eq_self

theorem base6_opcodeBits : opcodeBits (op ++ a ++ b ++ o6) = op := by
  unfold opcodeBits
  repeat rw [BitVec.extractLsb'_append_eq_of_le (by omega)]
  exact BitVec.extractLsb'_eq_self

theorem base6_field11to9 : field11to9 (op ++ a ++ b ++ o6) = a := by
  unfold field11to9
  repeat rw [BitVec.extractLsb'_append_eq_of_le (by omega)]
  rw [BitVec.extractLsb'_append_eq_of_add_le (by omega)]
  exact BitVec.extractLsb'_eq_self

theorem base6_field8to6 : field8to6 (op ++ a ++ b ++ o6) = b := by
  unfold field8to6
  repeat rw [BitVec.extractLsb'_append_eq_of_le (by omega)]
  rw [BitVec.extractLsb'_append_eq_of_add_le (by omega)]
  exact BitVec.extractLsb'_eq_self

theorem base6_offset6Bits : offset6Bits (op ++ a ++ b ++ o6) = o6 := by
  unfold offset6Bits
  rw [BitVec.extractLsb'_append_eq_of_add_le (by omega)]
  exact BitVec.extractLsb'_eq_self

theorem jsr_opcodeBits : opcodeBits (op ++ 0b1#1 ++ o11) = op := by
  unfold opcodeBits
  repeat rw [BitVec.extractLsb'_append_eq_of_le (by omega)]
  exact BitVec.extractLsb'_eq_self

theorem jsr_pcOffset11Bits : pcOffset11Bits (op ++ 0b1#1 ++ o11) = o11 := by
  unfold pcOffset11Bits
  rw [BitVec.extractLsb'_append_eq_of_add_le (by omega)]
  exact BitVec.extractLsb'_eq_self

theorem jsr_longFlag : longFlag (op ++ 0b1#1 ++ o11) = true := by
  unfold longFlag
  simp only [BitVec.getLsbD_append]
  rfl

theorem jsrr_opcodeBits : opcodeBits (op ++ 0b0#1 ++ 0b00#2 ++ b ++ 0b000000#6) = op := by
  unfold opcodeBits
  repeat rw [BitVec.extractLsb'_append_eq_of_le (by omega)]
  exact BitVec.extractLsb'_eq_self

theorem jsrr_field8to6 : field8to6 (op ++ 0b0#1 ++ 0b00#2 ++ b ++ 0b000000#6) = b := by
  unfold field8to6
  repeat rw [BitVec.extractLsb'_append_eq_of_le (by omega)]
  rw [BitVec.extractLsb'_append_eq_of_add_le (by omega)]
  exact BitVec.extractLsb'_eq_self

theorem jsrr_longFlag : longFlag (op ++ 0b0#1 ++ 0b00#2 ++ b ++ 0b000000#6) = false := by
  unfold longFlag
  simp only [BitVec.getLsbD_append]
  rfl

theorem trap_opcodeBits : opcodeBits (op ++ 0b0000#4 ++ v) = op := by
  unfold opcodeBits
  repeat rw [BitVec.extractLsb'_append_eq_of_le (by omega)]
  exact BitVec.extractLsb'_eq_self

theorem trap_trapvect8Bits : trapvect8Bits (op ++ 0b0000#4 ++ v) = v := by
  unfold trapvect8Bits
  rw [BitVec.extractLsb'_append_eq_of_add_le (by omega)]
  exact BitVec.extractLsb'_eq_self

end Fields

end Sys2Proof
end

