-- ==== Sys2Proof/Laws/Exec.lean ====
section
/-!
SUPPORT. What the meanings can do, once: COND's classification, the step, the string scan, and what a trap service leaves
alone. Callers cite these and do not unfold the services.
-/

namespace Sys2Proof.Machine

/-! ### COND -/

/-- COND's value classifies the word it is made from (R31, R148). -/
theorem condOf_classifies (v : Word) : Classifies (condOf v) v := by
  have hb : v.getLsbD 15 = decide (32768 ≤ v.toNat) := by
    have := BitVec.msb_eq_decide v
    simpa [BitVec.msb, BitVec.getMsbD] using this
  refine ⟨fun h => ?_, fun h => ?_, fun h => ?_⟩
  · have : v = 0x0000#16 := BitVec.eq_of_toNat_eq h
    simp [condOf, this, Config.flZro]
  · have h0 : v ≠ 0x0000#16 := by rintro rfl; simp at h
    have h1 : v.getLsbD 15 = true := by rw [hb]; simpa using h
    simp only [condOf, h0, if_false, h1, if_true, Config.flNeg, parameters_flNeg]
  · have h0 : v ≠ 0x0000#16 := by rintro rfl; simp at h
    have h1 : v.getLsbD 15 = false := by rw [hb]; simpa using (by omega : v.toNat < 32768)
    rw [condOf, if_neg h0, h1]
    rfl

/-- COND's value is one of the three (R29, R31). -/
theorem condOf_legal (v : Word) : condOf v = 0x0001#16 ∨ condOf v = 0x0002#16 ∨ condOf v = 0x0004#16 := by
  unfold condOf; split
  · exact .inr (.inl rfl)
  · split
    · exact .inr (.inr rfl)
    · exact .inl rfl

/-! ### Every instruction answers a next state -/

/-- The state after an instruction. -/
def after (i : Instr) (s : State) : State :=
  match exec i s with
  | .next t => t
  | .fault _ => s
  | .refused _ => s

/-- No meaning faults and none refuses: a fault of the machine is a next state whose status shows it (R271, R272). -/
theorem exec_eq_after (i : Instr) (s : State) : exec i s = .next (after i s) := by cases i <;> rfl

theorem after_of_exec {i : Instr} {s t : State} (h : exec i s = .next t) : t = after i s := by
  rw [exec_eq_after] at h; exact (Host.Outcome.next.inj h).symm

/-! ### The step -/

/-- Everything a step can do when it answers a next state (R100, R101, R231). -/
theorem step_cases {s t : State} (h : step s = .next t) :
    Runs s ∧ ((∃ p, s.pending = some p ∧ t = resume p (hostTurn s)) ∨
      (s.pending = none ∧ t = after (decode (fetch (hostTurn s)).1) (fetch (hostTurn s)).2)) := by
  unfold step at h
  split at h
  · cases h
  · next hs =>
    have hr : Runs s := by
      unfold stopReason at hs
      cases hst : s.status <;> rw [hst] at hs <;> simp at hs
      exact ⟨hst, hs⟩
    refine ⟨hr, ?_⟩
    split at h
    · next p hp =>
      rw [hostTurn_pending] at hp
      exact .inl ⟨p, hp, (Host.Outcome.next.inj h).symm⟩
    · next hp =>
      rw [hostTurn_pending] at hp
      exact .inr ⟨hp, after_of_exec h⟩

/-- While the run goes on no reason to stop holds. -/
theorem stopReason_of_runs {s : State} (h : Runs s) : stopReason s = none := by
  unfold stopReason; rw [h.1]; simp [h.2]

/-- The step of a running state with an instruction in progress. -/
theorem step_resume {s : State} {p : Pending} (h : Runs s) (hp : s.pending = some p) :
    step s = .next (resume p (hostTurn s)) := by
  unfold step; rw [stopReason_of_runs h]; simp [hp]

/-- The step of a running state with none. -/
theorem step_fetch {s : State} (h : Runs s) (hp : s.pending = none) :
    step s = exec (decode (fetch (hostTurn s)).1) (fetch (hostTurn s)).2 := by
  unfold step; rw [stopReason_of_runs h]; simp [hp]

/-- The word the host places is the one the very next step runs (log entry 21). -/
theorem step_withFetchWord (s : State) (w : Nat) :
    ∃ pc : Word, step (s.withFetchWord 16 w) =
      exec (decode (BitVec.ofNat 16 w)) ((hostTurn (s.withFetchWord 16 w)).setPc (pc + 1#16)) ∧
      (s.pc ≠ Config.kbsr → pc = s.pc) := by
  have hr : Runs (s.withFetchWord 16 w) := ⟨rfl, rfl⟩
  have hne : (s.withFetchWord 16 w).pc ≠ Config.kbsr := by
    show (if s.pc = Config.kbsr then Config.pcReset else s.pc) ≠ Config.kbsr
    split
    · decide
    · assumption
  refine ⟨(s.withFetchWord 16 w).pc, ?_, fun h => ?_⟩
  · rw [step_fetch hr rfl, fetch_eq, hostTurn_pc, memRead_ne _ _ hne]
    have hw : (hostTurn (s.withFetchWord 16 w)).mem.read (s.withFetchWord 16 w).pc = BitVec.ofNat 16 w := by
      rw [hostTurn_mem]
      refine (Memory.read_write_same s.mem _ _).trans ?_
      apply BitVec.eq_of_toNat_eq
      simp
    rw [hw]
  · show (if s.pc = Config.kbsr then Config.pcReset else s.pc) = s.pc
    simp [h]

/-! ### Strings (R224, R226, R229) -/

theorem scanString_string (m : Memory) (ws : List Word) (a : Word) (n : Nat) (hn : ws.length < n)
    (hw : ∀ i : Nat, ∀ h : i < ws.length, m.read (a + BitVec.ofNat 16 i) = ws[i] ∧ ws[i] ≠ 0x0000#16)
    (hz : m.read (a + BitVec.ofNat 16 ws.length) = 0x0000#16) : scanString m n a = (ws, true) := by
  induction ws generalizing a n with
  | nil =>
    cases n with
    | zero => simp at hn
    | succ n =>
      have : m.read a = 0x0000#16 := by simpa using hz
      simp [scanString, this]
  | cons w rest ih =>
    cases n with
    | zero => simp at hn
    | succ n =>
      have h0 := hw 0 (by simp)
      simp only [BitVec.add_zero, List.getElem_cons_zero] at h0
      have hstep : ∀ i : Nat, a + 1#16 + BitVec.ofNat 16 i = a + BitVec.ofNat 16 (i + 1) := by
        intro i
        rw [BitVec.add_assoc]
        congr 1
        apply BitVec.eq_of_toNat_eq
        simp [Nat.add_comm]
      have hrest := ih (a + 1#16) n (by simpa using hn)
        (fun i h => by rw [hstep]; exact hw (i + 1) (Nat.succ_lt_succ h))
        (by rw [hstep]; exact hz)
      unfold scanString
      rw [h0.1, if_neg h0.2, hrest]

theorem scanString_endless (m : Memory) (n : Nat) (a : Word) (h : ∀ b : Word, m.read b ≠ 0x0000#16) :
    (scanString m n a).2 = false ∧ (scanString m n a).1.length = n ∧
    ∀ k : Nat, ∀ hk : k < (scanString m n a).1.length, (scanString m n a).1[k] = m.read (a + BitVec.ofNat 16 k) := by
  induction n generalizing a with
  | zero => exact ⟨rfl, rfl, fun k hk => by simp [scanString] at hk⟩
  | succ n ih =>
    have e : scanString m (n + 1) a = (m.read a :: (scanString m n (a + 1#16)).1, (scanString m n (a + 1#16)).2) := by
      conv => lhs; unfold scanString
      simp [h a]
    obtain ⟨h2, h1, hk⟩ := ih (a + 1#16)
    rw [e]
    refine ⟨h2, by simp [h1], fun k hk' => ?_⟩
    cases k with
    | zero => simp
    | succ k =>
      simp only [List.getElem_cons_succ]
      rw [hk k (by simpa using hk'), BitVec.add_assoc]
      congr 2
      apply BitVec.eq_of_toNat_eq
      simp [Nat.add_comm]

/-- A string service over a string: it writes the words and ends (R224, R226). -/
theorem serveString_string (p : Pending) (render : Word → List Byte) (s : State) (ws : List Word)
    (h : StringAt s.mem (s.reg .r0) ws) :
    serveString p render s = writeThen (ws.flatMap render) id (s.setPending none) := by
  unfold serveString
  rw [scanString_string s.mem ws _ Config.memWords h.1 h.2.1 h.2.2]
  rfl

/-- A string service over a memory with no zero word: it writes a round and stays in progress (R229). The round depends on
memory and R0 alone. -/
theorem serveString_endless (p : Pending) (render : Word → List Byte) (s : State) (h : ∀ a : Word, s.mem.read a ≠ 0x0000#16) :
    ∃ ws : List Word, ws.length = 65536 ∧
      (∀ k : Nat, ∀ hk : k < ws.length, ws[k] = s.mem.read (s.reg .r0 + BitVec.ofNat 16 k)) ∧
      ∀ t : State, t.mem = s.mem → t.reg .r0 = s.reg .r0 →
        serveString p render t =
          writeThen (ws.flatMap render) (fun u => u.setPending (some p)) (t.setPending none) := by
  obtain ⟨h1, h2, h3⟩ := scanString_endless s.mem Config.memWords (s.reg .r0) h
  refine ⟨_, h2, h3, fun t hm hr => ?_⟩
  unfold serveString
  rw [hm, hr]
  simp only [h1]
  rfl

/-! ### What a trap service leaves alone -/

/-- What no service touches: the registers but R0, PC, the memory, the host's plan. -/
structure ServiceFrame (s t : State) : Prop where
  reg : ∀ q : Reg, q ≠ .r0 → t.reg q = s.reg q
  pc : t.pc = s.pc
  mem : t.mem = s.mem
  schedule : t.schedule = s.schedule
  oracleTurn : t.oracleTurn = s.oracleTurn
  inputFails : t.inputFails = s.inputFails

theorem ServiceFrame.trans {s t u : State} (h : ServiceFrame s t) (h' : ServiceFrame t u) : ServiceFrame s u where
  reg q hq := (h'.reg q hq).trans (h.reg q hq)
  pc := h'.pc.trans h.pc
  mem := h'.mem.trans h.mem
  schedule := h'.schedule.trans h.schedule
  oracleTurn := h'.oracleTurn.trans h.oracleTurn
  inputFails := h'.inputFails.trans h.inputFails

theorem ServiceFrame.writeThen (bs : List Byte) (k : State → State) (s : State) (hk : ∀ t, ServiceFrame t (k t)) :
    ServiceFrame s (writeThen bs k s) := by
  rcases writeThen_cases bs k s with ⟨_, h⟩ | ⟨m, _, _, h⟩ <;> rw [h]
  · exact ServiceFrame.trans (t := s.setOut (s.out ++ bs) (s.writesLeft.map (fun m => m - bs.length)))
      ⟨fun _ _ => rfl, rfl, rfl, rfl, rfl, rfl⟩ (hk _)
  · exact ⟨fun _ _ => rfl, rfl, rfl, rfl, rfl, rfl⟩

theorem ServiceFrame.readThen (w : Pending) (k : Byte → State → State) (s : State)
    (hk : ∀ b t, ServiceFrame t (k b t)) : ServiceFrame s (readThen w k s) := by
  rcases readThen_cases w k s with ⟨b, rest, _, h⟩ | ⟨_, _, h⟩ | ⟨_, _, h⟩ <;> rw [h]
  · exact ServiceFrame.trans (t := (s.setPending none).setInq rest) ⟨fun _ _ => rfl, rfl, rfl, rfl, rfl, rfl⟩ (hk _ _)
  · exact ⟨fun _ _ => rfl, rfl, rfl, rfl, rfl, rfl⟩
  · exact ⟨fun _ _ => rfl, rfl, rfl, rfl, rfl, rfl⟩

theorem loadInput_frame (b : Byte) (s : State) : ServiceFrame s (loadInput b s) :=
  ⟨fun _ hq => writeResult_reg_ne _ _ _ _ hq, rfl, rfl, rfl, rfl, rfl⟩

theorem serveGetc_frame (s : State) : ServiceFrame s (serveGetc s) :=
  ServiceFrame.readThen _ _ _ loadInput_frame

theorem awaitIn_frame (s : State) : ServiceFrame s (awaitIn s) :=
  ServiceFrame.readThen _ _ _ (fun b _ => ServiceFrame.writeThen _ _ _ (loadInput_frame b))

theorem setPending_frame (p : Option Pending) (s : State) : ServiceFrame s (s.setPending p) :=
  ⟨fun _ _ => rfl, rfl, rfl, rfl, rfl, rfl⟩

theorem serveIn_frame (s : State) : ServiceFrame s (serveIn s) :=
  ServiceFrame.trans (setPending_frame none s) (ServiceFrame.writeThen _ _ _ awaitIn_frame)

theorem serveOut_frame (s : State) : ServiceFrame s (serveOut s) :=
  ServiceFrame.trans (setPending_frame none s)
    (ServiceFrame.writeThen _ _ _ (fun _ => ⟨fun _ _ => rfl, rfl, rfl, rfl, rfl, rfl⟩))

theorem serveString_frame (p : Pending) (f : Word → List Byte) (s : State) : ServiceFrame s (serveString p f s) := by
  refine ServiceFrame.trans (setPending_frame none s) (ServiceFrame.writeThen _ _ _ (fun t => ?_))
  split
  · exact ⟨fun _ _ => rfl, rfl, rfl, rfl, rfl, rfl⟩
  · exact setPending_frame _ _

theorem serveHalt_frame (s : State) : ServiceFrame s (serveHalt s) :=
  ServiceFrame.trans (setPending_frame none s)
    (ServiceFrame.writeThen _ _ _ (fun _ => ⟨fun _ _ => rfl, rfl, rfl, rfl, rfl, rfl⟩))

theorem trapService_frame (v : BitVec 8) (s : State) : ServiceFrame s (trapService v s) := by
  unfold trapService
  repeat' split
  · exact serveGetc_frame s
  · exact serveOut_frame s
  · exact serveString_frame _ _ s
  · exact serveIn_frame s
  · exact serveString_frame _ _ s
  · exact serveHalt_frame s
  · exact ⟨fun _ _ => rfl, rfl, rfl, rfl, rfl, rfl⟩

theorem resume_frame (p : Pending) (s : State) : ServiceFrame s (resume p s) := by
  cases p
  · exact serveGetc_frame s
  · exact awaitIn_frame s
  · exact serveString_frame _ _ s
  · exact serveString_frame _ _ s

end Sys2Proof.Machine
end

