-- ==== Sys2Proof/Laws/Loader.lean ====
section
/-!
SUPPORT. The loader's walk over the bytes of an image (spec/70_reset_and_hazards.md R320, R321).
-/

namespace Sys2Proof.Machine

/-- One word, then the rest from the next address. -/
theorem loadWords_cons (m : Memory) (a : Nat) (b0 b1 : Byte) (rest : List Byte) (h : a < 65536) :
    loadWords m a (b0 :: b1 :: rest) = loadWords (m.write (BitVec.ofNat 16 a) (wordOfBytes b0 b1)) (a + 1) rest := by
  rw [loadWords, if_pos (by simpa [Config.memWords] using h)]

/-- Loading whole words and then more bytes is loading the words, then the rest after them. -/
theorem loadWords_append (ws : List (Byte × Byte)) (m : Memory) (a : Nat) (tail : List Byte) (h : a + ws.length ≤ 65536) :
    loadWords m a (ws.flatMap (fun w => [w.1, w.2]) ++ tail) =
      loadWords (loadWords m a (ws.flatMap (fun w => [w.1, w.2]))) (a + ws.length) tail := by
  induction ws generalizing m a with
  | nil => simp; cases tail <;> rfl
  | cons w rest ih =>
    simp only [List.length_cons] at h
    simp only [List.flatMap_cons, List.cons_append, List.nil_append, List.length_cons]
    rw [loadWords_cons _ _ _ _ _ (by omega), loadWords_cons _ _ _ _ _ (by omega), ih _ _ (by omega)]
    congr 1; omega

/-- Above 0xFFFF nothing is loaded (R321). -/
theorem loadWords_top (m : Memory) (l : List Byte) : loadWords m 65536 l = m := by
  unfold loadWords; split <;> simp [Config.memWords]

/-- The loader's writes keep the memory's canonical form. -/
theorem loadWords_wf (l : List Byte) (m : Memory) (a : Nat) (h : m.wf = true) : (loadWords m a l).wf = true := by
  fun_induction loadWords m a l with
  | case1 => rename_i ih; exact ih (Memory.wf_write _ _ _ h)
  | case2 => exact h
  | case3 => exact h

end Sys2Proof.Machine
end

