-- ==== Sys2Proof/Laws/PerInstr.lean ====
section
/-!
SUPPORT. Facts about every instruction as a term, one lemma per constructor (LAWS.json names the families).
-/

namespace Sys2Proof.Laws

/-- The word the encoder gives an instruction belongs to the instruction's primary row (spec/30_encoding.md R125, R126). -/
def EncodeInRow.Statement (i : Instr) : Prop := encode i &&& i.row.mask = i.row.pattern

/-- A row that fixes the opcode only. -/
theorem EncodeInRow.ofOpcode (w : Word) (op : BitVec 4) (p : Word) (h : opcodeBits w = op) (hp : op ++ 0#12 = p) :
    w &&& 0xF000#16 = p := by
  rw [and_opcode_mask, h]; exact hp

/-- A row that fixes the opcode and bit 5. -/
theorem EncodeInRow.ofImmFlag (w : Word) (op : BitVec 4) (f : Bool) (p : Word) (h : opcodeBits w = op)
    (hf : immFlag w = f) (hp : op ++ 0#6 ++ BitVec.ofBool f ++ 0#5 = p) : w &&& 0xF020#16 = p := by
  rw [and_imm_mask, h, hf]; exact hp

/-- A row that fixes the opcode and bit 11. -/
theorem EncodeInRow.ofLongFlag (w : Word) (op : BitVec 4) (f : Bool) (p : Word) (h : opcodeBits w = op)
    (hf : longFlag w = f) (hp : op ++ BitVec.ofBool f ++ 0#11 = p) : w &&& 0xF800#16 = p := by
  rw [and_long_mask, h, hf]; exact hp

theorem EncodeInRow.br (nzp : BitVec 3) (off : BitVec 9) : Statement (.br nzp off) :=
  ofOpcode _ _ _ (pc9_opcodeBits _ _ _) rfl

theorem EncodeInRow.addReg (dr sr1 sr2 : Reg) : Statement (.addReg dr sr1 sr2) :=
  ofImmFlag _ _ _ _ (op3r_opcodeBits _ _ _ _) (op3r_immFlag _ _ _ _) rfl

theorem EncodeInRow.andReg (dr sr1 sr2 : Reg) : Statement (.andReg dr sr1 sr2) :=
  ofImmFlag _ _ _ _ (op3r_opcodeBits _ _ _ _) (op3r_immFlag _ _ _ _) rfl

theorem EncodeInRow.addImm (dr sr1 : Reg) (imm : BitVec 5) : Statement (.addImm dr sr1 imm) :=
  ofImmFlag _ _ _ _ (op3i_opcodeBits _ _ _ _) (op3i_immFlag _ _ _ _) rfl

theorem EncodeInRow.andImm (dr sr1 : Reg) (imm : BitVec 5) : Statement (.andImm dr sr1 imm) :=
  ofImmFlag _ _ _ _ (op3i_opcodeBits _ _ _ _) (op3i_immFlag _ _ _ _) rfl

theorem EncodeInRow.ld (dr : Reg) (off : BitVec 9) : Statement (.ld dr off) :=
  ofOpcode _ _ _ (pc9_opcodeBits _ _ _) rfl

theorem EncodeInRow.ldi (dr : Reg) (off : BitVec 9) : Statement (.ldi dr off) :=
  ofOpcode _ _ _ (pc9_opcodeBits _ _ _) rfl

theorem EncodeInRow.lea (dr : Reg) (off : BitVec 9) : Statement (.lea dr off) :=
  ofOpcode _ _ _ (pc9_opcodeBits _ _ _) rfl

theorem EncodeInRow.st (sr : Reg) (off : BitVec 9) : Statement (.st sr off) :=
  ofOpcode _ _ _ (pc9_opcodeBits _ _ _) rfl

theorem EncodeInRow.sti (sr : Reg) (off : BitVec 9) : Statement (.sti sr off) :=
  ofOpcode _ _ _ (pc9_opcodeBits _ _ _) rfl

theorem EncodeInRow.ldr (dr base : Reg) (off : BitVec 6) : Statement (.ldr dr base off) :=
  ofOpcode _ _ _ (base6_opcodeBits _ _ _ _) rfl

theorem EncodeInRow.str (sr base : Reg) (off : BitVec 6) : Statement (.str sr base off) :=
  ofOpcode _ _ _ (base6_opcodeBits _ _ _ _) rfl

theorem EncodeInRow.jsrr (base : Reg) : Statement (.jsrr base) :=
  ofLongFlag _ _ _ _ (jsrr_opcodeBits _ _) (jsrr_longFlag _ _) rfl

theorem EncodeInRow.jsr (off : BitVec 11) : Statement (.jsr off) :=
  ofLongFlag _ _ _ _ (jsr_opcodeBits _ _) (jsr_longFlag _ _) rfl

theorem EncodeInRow.rti : Statement .rti :=
  rfl

theorem EncodeInRow.res : Statement .res :=
  rfl

theorem EncodeInRow.not (dr sr1 : Reg) : Statement (.not dr sr1) :=
  ofOpcode _ _ _ (base6_opcodeBits _ _ _ _) rfl

theorem EncodeInRow.jmp (base : Reg) : Statement (.jmp base) :=
  ofOpcode _ _ _ (base6_opcodeBits _ _ _ _) rfl

theorem EncodeInRow.ret : Statement .ret :=
  rfl

theorem EncodeInRow.nop (off : BitVec 9) : Statement (.nop off) :=
  ofOpcode _ _ _ (pc9_opcodeBits _ _ _) rfl

theorem EncodeInRow.trap (vect : BitVec 8) : Statement (.trap vect) :=
  ofOpcode _ _ _ (trap_opcodeBits _ _) rfl

theorem EncodeInRow.trapUnknown (vect : BitVec 8) : Statement (.trapUnknown vect) :=
  ofOpcode _ _ _ (trap_opcodeBits _ _) rfl

theorem EncodeInRow.trapGetc : Statement .trapGetc :=
  rfl

theorem EncodeInRow.trapOut : Statement .trapOut :=
  rfl

theorem EncodeInRow.trapPuts : Statement .trapPuts :=
  rfl

theorem EncodeInRow.trapIn : Statement .trapIn :=
  rfl

theorem EncodeInRow.trapPutsp : Statement .trapPutsp :=
  rfl

theorem EncodeInRow.trapHalt : Statement .trapHalt :=
  rfl

end Sys2Proof.Laws
end

