-- ==== Sys2Proof/Laws/Shapes.lean ====
section
/-!
SUPPORT. What an instruction can do, said once: `exec_shape` gives the state after any instruction as one of nine shapes, and
`ServiceEffect` everything a trap service can do. A statement about all instructions is a case analysis over these.
-/

namespace Sys2Proof

/-- The destination register of the instructions that have a DR (R32, R140, R180). -/
def Instr.dest : Instr → Option Reg
  | .addReg dr _ _ | .addImm dr _ _ | .andReg dr _ _ | .andImm dr _ _ | .not dr _ => some dr
  | .ld dr _ | .ldi dr _ | .ldr dr _ _ | .lea dr _ => some dr
  | .br _ _ | .nop _ | .jmp _ | .ret | .jsr _ | .jsrr _ | .st _ _ | .sti _ _ | .str _ _ _ | .rti | .res => none
  | .trap _ | .trapGetc | .trapOut | .trapPuts | .trapIn | .trapPutsp | .trapHalt | .trapUnknown _ => none

/-- LD, LDI, LDR. -/
def Instr.isLoad : Instr → Bool
  | .ld _ _ | .ldi _ _ | .ldr _ _ _ => true
  | .addReg _ _ _ | .addImm _ _ _ | .andReg _ _ _ | .andImm _ _ _ | .not _ _ | .lea _ _ => false
  | .br _ _ | .nop _ | .jmp _ | .ret | .jsr _ | .jsrr _ | .st _ _ | .sti _ _ | .str _ _ _ | .rti | .res => false
  | .trap _ | .trapGetc | .trapOut | .trapPuts | .trapIn | .trapPutsp | .trapHalt | .trapUnknown _ => false

/-- ST, STI, STR. -/
def Instr.isStore : Instr → Bool
  | .st _ _ | .sti _ _ | .str _ _ _ => true
  | .addReg _ _ _ | .addImm _ _ _ | .andReg _ _ _ | .andImm _ _ _ | .not _ _ | .lea _ _ => false
  | .br _ _ | .nop _ | .jmp _ | .ret | .jsr _ | .jsrr _ | .ld _ _ | .ldi _ _ | .ldr _ _ _ | .rti | .res => false
  | .trap _ | .trapGetc | .trapOut | .trapPuts | .trapIn | .trapPutsp | .trapHalt | .trapUnknown _ => false

/-- BR, JMP, RET. -/
def Instr.isJump : Instr → Bool
  | .br _ _ | .jmp _ | .ret => true
  | .addReg _ _ _ | .addImm _ _ _ | .andReg _ _ _ | .andImm _ _ _ | .not _ _ | .lea _ _ => false
  | .nop _ | .jsr _ | .jsrr _ | .ld _ _ | .ldi _ _ | .ldr _ _ _ | .st _ _ | .sti _ _ | .str _ _ _ | .rti | .res => false
  | .trap _ | .trapGetc | .trapOut | .trapPuts | .trapIn | .trapPutsp | .trapHalt | .trapUnknown _ => false

/-- JSR, JSRR. -/
def Instr.isCall : Instr → Bool
  | .jsr _ | .jsrr _ => true
  | .addReg _ _ _ | .addImm _ _ _ | .andReg _ _ _ | .andImm _ _ _ | .not _ _ | .lea _ _ => false
  | .br _ _ | .nop _ | .jmp _ | .ret | .ld _ _ | .ldi _ _ | .ldr _ _ _ | .st _ _ | .sti _ _ | .str _ _ _ | .rti | .res => false
  | .trap _ | .trapGetc | .trapOut | .trapPuts | .trapIn | .trapPutsp | .trapHalt | .trapUnknown _ => false

theorem Instr.dest_cases {i : Instr} {q : Reg} (h : i.dest = some q) :
    (∃ a b, i = .addReg q a b) ∨ (∃ a m, i = .addImm q a m) ∨ (∃ a b, i = .andReg q a b) ∨
    (∃ a m, i = .andImm q a m) ∨ (∃ a, i = .not q a) ∨ (∃ o, i = .ld q o) ∨ (∃ o, i = .ldi q o) ∨
    (∃ b o, i = .ldr q b o) ∨ (∃ o, i = .lea q o) := by
  cases i <;> simp [Instr.dest] at h <;> simp [h]

theorem Instr.isLoad_cases {i : Instr} (h : i.isLoad = true) :
    (∃ r o, i = .ld r o) ∨ (∃ r o, i = .ldi r o) ∨ (∃ r b o, i = .ldr r b o) := by
  cases i <;> simp [Instr.isLoad] at h <;> simp

theorem Instr.isStore_cases {i : Instr} (h : i.isStore = true) :
    (∃ r o, i = .st r o) ∨ (∃ r o, i = .sti r o) ∨ (∃ r b o, i = .str r b o) := by
  cases i <;> simp [Instr.isStore] at h <;> simp

theorem Instr.isJump_cases {i : Instr} (h : i.isJump = true) :
    (∃ n o, i = .br n o) ∨ (∃ b, i = .jmp b) ∨ i = .ret := by
  cases i <;> simp [Instr.isJump] at h <;> simp

theorem Instr.isCall_cases {i : Instr} (h : i.isCall = true) : (∃ o, i = .jsr o) ∨ (∃ b, i = .jsrr b) := by
  cases i <;> simp [Instr.isCall] at h <;> simp

end Sys2Proof

namespace Sys2Proof.Machine

/-! ### What a trap service can do -/

/-- Everything a trap service can do beside its frame: it appends to the output; it ends as it began, in IOFault or halted; it
waits only while the run goes on; COND is as before or classifies R0; it takes at most the head byte of the input. -/
structure ServiceEffect (s t : State) : Prop where
  out : ∃ bytes, t.out = s.out ++ bytes
  run : (t.running = s.running ∧ (t.status = s.status ∨ t.status = .faultIo)) ∨ (t.running = false ∧ t.status = .halted)
  pending : t.pending = none ∨ t.status = s.status
  cond : t.cond = s.cond ∨ t.cond = condOf (t.reg .r0)
  inq : t.inq = s.inq ∨ ∃ b, s.inq = b :: t.inq

theorem ServiceEffect.ofSetPending {s t : State} (h : ServiceEffect (s.setPending none) t) : ServiceEffect s t :=
  ⟨h.out, h.run, h.pending, h.cond, h.inq⟩

theorem ServiceEffect.writeThen (bs : List Byte) (k : State → State) (s : State) (hp : s.pending = none)
    (hk : ∀ t, t.pending = none → ServiceEffect t (k t)) : ServiceEffect s (writeThen bs k s) := by
  rcases writeThen_cases bs k s with ⟨_, h⟩ | ⟨m, _, _, h⟩ <;> rw [h]
  · obtain ⟨⟨b, ho⟩, h2, h3, h4, h5⟩ := hk (s.setOut (s.out ++ bs) (s.writesLeft.map (fun m => m - bs.length))) hp
    exact ⟨⟨bs ++ b, by rw [ho]; simp⟩, h2, h3, h4, h5⟩
  · exact ⟨⟨_, rfl⟩, .inl ⟨rfl, .inr rfl⟩, .inl hp, .inl rfl, .inl rfl⟩

theorem ServiceEffect.readThen (w : Pending) (k : Byte → State → State) (s : State)
    (hk : ∀ b t, t.pending = none → ServiceEffect t (k b t) ∧ (k b t).inq = t.inq) :
    ServiceEffect s (readThen w k s) := by
  rcases readThen_cases w k s with ⟨b, rest, hq, h⟩ | ⟨_, _, h⟩ | ⟨_, _, h⟩ <;> rw [h]
  · obtain ⟨⟨h1, h2, h3, h4, _⟩, h6⟩ := hk b ((s.setPending none).setInq rest) rfl
    exact ⟨h1, h2, h3, h4, .inr ⟨b, by rw [h6]; exact hq⟩⟩
  · exact ⟨⟨[], by simp⟩, .inl ⟨rfl, .inr rfl⟩, .inl rfl, .inl rfl, .inl rfl⟩
  · exact ⟨⟨[], by simp⟩, .inl ⟨rfl, .inl rfl⟩, .inr rfl, .inl rfl, .inl rfl⟩

theorem loadInput_effect (b : Byte) (s : State) (hp : s.pending = none) : ServiceEffect s (loadInput b s) :=
  ⟨⟨[], by simp [loadInput]⟩, .inl ⟨rfl, .inl rfl⟩, .inl hp, .inr (by simp [loadInput]), .inl rfl⟩

theorem serveGetc_effect (s : State) : ServiceEffect s (serveGetc s) :=
  ServiceEffect.readThen _ _ _ (fun b t h => ⟨loadInput_effect b t h, rfl⟩)

theorem awaitIn_effect (s : State) : ServiceEffect s (awaitIn s) := by
  refine ServiceEffect.readThen _ _ _ (fun b t h => ⟨ServiceEffect.writeThen _ _ _ h (loadInput_effect b), ?_⟩)
  rcases writeThen_cases [b] (loadInput b) t with ⟨_, h⟩ | ⟨m, _, _, h⟩ <;> rw [h] <;> rfl

theorem serveIn_effect (s : State) : ServiceEffect s (serveIn s) :=
  .ofSetPending (ServiceEffect.writeThen _ _ _ rfl (fun t _ => awaitIn_effect t))

theorem serveOut_effect (s : State) : ServiceEffect s (serveOut s) :=
  .ofSetPending (ServiceEffect.writeThen _ _ _ rfl
    (fun _ h => ⟨⟨[], by simp⟩, .inl ⟨rfl, .inl rfl⟩, .inl h, .inl rfl, .inl rfl⟩))

theorem serveHalt_effect (s : State) : ServiceEffect s (serveHalt s) :=
  .ofSetPending (ServiceEffect.writeThen _ _ _ rfl
    (fun _ h => ⟨⟨[], by simp⟩, .inr ⟨rfl, rfl⟩, .inl h, .inl rfl, .inl rfl⟩))

theorem serveString_effect (p : Pending) (f : Word → List Byte) (s : State) : ServiceEffect s (serveString p f s) := by
  refine .ofSetPending (ServiceEffect.writeThen _ _ _ rfl (fun t h => ?_))
  split
  · exact ⟨⟨[], by simp⟩, .inl ⟨rfl, .inl rfl⟩, .inl h, .inl rfl, .inl rfl⟩
  · exact ⟨⟨[], by simp⟩, .inl ⟨rfl, .inl rfl⟩, .inr rfl, .inl rfl, .inl rfl⟩

theorem resume_effect (p : Pending) (s : State) : ServiceEffect s (resume p s) := by
  cases p
  · exact serveGetc_effect s
  · exact awaitIn_effect s
  · exact serveString_effect _ _ s
  · exact serveString_effect _ _ s

/-- An effect that does not halt the run: every service but HALT. -/
theorem ServiceEffect.not_halted {s t : State} (h : ServiceEffect s t) (hr : t.running = s.running) (hs : s.running = true) :
    t.status = s.status ∨ t.status = .faultIo := by
  rcases h.run with ⟨_, h⟩ | ⟨h, _⟩
  · exact h
  · rw [hr, hs] at h; cases h

theorem readThen_running (w : Pending) (k : Byte → State → State) (s : State) (hk : ∀ b t, (k b t).running = t.running) :
    (readThen w k s).running = s.running := by
  rcases readThen_cases w k s with ⟨b, rest, _, h⟩ | ⟨_, _, h⟩ | ⟨_, _, h⟩ <;> rw [h]
  · rw [hk]; rfl
  · rfl
  · rfl

theorem writeThen_running (bs : List Byte) (k : State → State) (s : State) (hk : ∀ t, (k t).running = t.running) :
    (writeThen bs k s).running = s.running := by
  rcases writeThen_cases bs k s with ⟨_, h⟩ | ⟨m, _, _, h⟩ <;> rw [h]
  · rw [hk]; rfl
  · rfl

@[simp] theorem serveGetc_running (s : State) : (serveGetc s).running = s.running :=
  readThen_running _ _ _ (fun _ _ => rfl)

@[simp] theorem awaitIn_running (s : State) : (awaitIn s).running = s.running :=
  readThen_running _ _ _ (fun _ _ => writeThen_running _ _ _ (fun _ => rfl))

@[simp] theorem serveIn_running (s : State) : (serveIn s).running = s.running :=
  writeThen_running _ _ _ awaitIn_running

@[simp] theorem serveOut_running (s : State) : (serveOut s).running = s.running :=
  writeThen_running _ _ _ (fun _ => rfl)

@[simp] theorem serveString_running (p : Pending) (f : Word → List Byte) (s : State) :
    (serveString p f s).running = s.running :=
  writeThen_running _ _ _ (fun t => by split <;> rfl)

@[simp] theorem resume_running (p : Pending) (s : State) : (resume p s).running = s.running := by
  cases p
  · exact serveGetc_running s
  · exact awaitIn_running s
  · exact serveString_running _ _ s
  · exact serveString_running _ _ s

/-- A service that only writes leaves R0 and COND. -/
theorem writeThen_r0_cond (bs : List Byte) (k : State → State) (s : State)
    (hk : ∀ t, (k t).reg .r0 = t.reg .r0 ∧ (k t).cond = t.cond) :
    (writeThen bs k s).reg .r0 = s.reg .r0 ∧ (writeThen bs k s).cond = s.cond := by
  rcases writeThen_cases bs k s with ⟨_, h⟩ | ⟨m, _, _, h⟩ <;> rw [h]
  · exact ⟨(hk _).1, (hk _).2⟩
  · exact ⟨rfl, rfl⟩

/-! ### TRAP by its vector -/

/-- TRAP with a vector is the instruction the vector names (R125, R220, R221). -/
theorem exec_nameOfVector (v : BitVec 8) (s : State) : exec (nameOfVector v) s = .next (trapService v (link s)) := by
  unfold nameOfVector trapService
  by_cases h1 : v = Config.vecGetc
  · rw [if_pos h1, if_pos h1]; rfl
  rw [if_neg h1, if_neg h1]
  by_cases h2 : v = Config.vecOut
  · rw [if_pos h2, if_pos h2]; rfl
  rw [if_neg h2, if_neg h2]
  by_cases h3 : v = Config.vecPuts
  · rw [if_pos h3, if_pos h3]; rfl
  rw [if_neg h3, if_neg h3]
  by_cases h4 : v = Config.vecIn
  · rw [if_pos h4, if_pos h4]; rfl
  rw [if_neg h4, if_neg h4]
  by_cases h5 : v = Config.vecPutsp
  · rw [if_pos h5, if_pos h5]; rfl
  rw [if_neg h5, if_neg h5]
  by_cases h6 : v = Config.vecHalt
  · rw [if_pos h6, if_pos h6]; rfl
  rw [if_neg h6, if_neg h6]
  rfl

/-! ### The shapes -/

/-- What an instruction can leave behind: nine shapes. -/
inductive Shape (i : Instr) (s : State) : State → Prop where
  /-- ADD, AND, NOT, LEA. -/
  | result (dr : Reg) (v : Word) : i.dest = some dr → Shape i s (writeResult dr v s)
  /-- LD, LDR; and LDI, with `u` the state after the read of the pointer. -/
  | load (dr : Reg) (ea : Word) (u : State) : i.dest = some dr → i.isLoad = true →
      (u = s ∨ ∃ b, u = (memRead b s).2) → Shape i s (loadFrom dr ea u)
  /-- ST, STR; and STI, with `u` the state after the read of the pointer. -/
  | store (ea v : Word) (u : State) : i.isStore = true → (u = s ∨ ∃ b, u = (memRead b s).2) → Shape i s (memWrite ea v u)
  /-- JMP, RET, BR taken. -/
  | jump (v : Word) : i.isJump = true → Shape i s (s.setPc v)
  /-- BR not taken, NOP. -/
  | stay : Shape i s s
  /-- JSR, JSRR. -/
  | call (v : Word) : i.isCall = true → Shape i s ((link s).setPc v)
  /-- RTI, RES. -/
  | illegal : i = .rti ∨ i = .res → Shape i s (takeFault .illegalOpcode s)
  /-- TRAP with an unknown vector. -/
  | trapLink : i.row = ⟨0xF000#16, 0xF000#16⟩ → Shape i s (link s)
  /-- TRAP with a service, named by the term's most special name. -/
  | service (t : State) : i.row = ⟨0xF000#16, 0xF000#16⟩ →
      (i.canonical = .trapGetc ∧ t = serveGetc (link s)) ∨ (i.canonical = .trapOut ∧ t = serveOut (link s)) ∨
      (i.canonical = .trapPuts ∧ t = servePuts (link s)) ∨ (i.canonical = .trapIn ∧ t = serveIn (link s)) ∨
      (i.canonical = .trapPutsp ∧ t = servePutsp (link s)) ∨ (i.canonical = .trapHalt ∧ t = serveHalt (link s)) →
      Shape i s t

theorem trapService_shape (i : Instr) (v : BitVec 8) (s : State) (hr : i.row = ⟨0xF000#16, 0xF000#16⟩)
    (hc : i.canonical = nameOfVector v) : Shape i s (trapService v (link s)) := by
  unfold nameOfVector at hc
  unfold trapService
  by_cases h1 : v = Config.vecGetc
  · rw [if_pos h1] at hc ⊢; exact .service _ hr (.inl ⟨hc, rfl⟩)
  rw [if_neg h1] at hc ⊢
  by_cases h2 : v = Config.vecOut
  · rw [if_pos h2] at hc ⊢; exact .service _ hr (.inr (.inl ⟨hc, rfl⟩))
  rw [if_neg h2] at hc ⊢
  by_cases h3 : v = Config.vecPuts
  · rw [if_pos h3] at hc ⊢; exact .service _ hr (.inr (.inr (.inl ⟨hc, rfl⟩)))
  rw [if_neg h3] at hc ⊢
  by_cases h4 : v = Config.vecIn
  · rw [if_pos h4] at hc ⊢; exact .service _ hr (.inr (.inr (.inr (.inl ⟨hc, rfl⟩))))
  rw [if_neg h4] at hc ⊢
  by_cases h5 : v = Config.vecPutsp
  · rw [if_pos h5] at hc ⊢; exact .service _ hr (.inr (.inr (.inr (.inr (.inl ⟨hc, rfl⟩)))))
  rw [if_neg h5] at hc ⊢
  by_cases h6 : v = Config.vecHalt
  · rw [if_pos h6] at hc ⊢; exact .service _ hr (.inr (.inr (.inr (.inr (.inr ⟨hc, rfl⟩)))))
  rw [if_neg h6]
  exact .trapLink hr

/-- Everything an instruction can do. -/
theorem exec_shape {i : Instr} {s t : State} (h : exec i s = .next t) : Shape i s t := by
  cases i <;> cases h
  case br nzp off =>
    split
    · exact .jump _ rfl
    · exact .stay
  case addReg => exact .result _ _ rfl
  case addImm => exact .result _ _ rfl
  case andReg => exact .result _ _ rfl
  case andImm => exact .result _ _ rfl
  case not => exact .result _ _ rfl
  case lea => exact .result _ _ rfl
  case ld => exact .load _ _ _ rfl rfl (.inl rfl)
  case ldr => exact .load _ _ _ rfl rfl (.inl rfl)
  case ldi => exact .load _ _ _ rfl rfl (.inr ⟨_, rfl⟩)
  case st => exact .store _ _ _ rfl (.inl rfl)
  case str => exact .store _ _ _ rfl (.inl rfl)
  case sti => exact .store _ _ _ rfl (.inr ⟨_, rfl⟩)
  case jmp => exact .jump _ rfl
  case ret => exact .jump _ rfl
  case nop => exact .stay
  case jsr => exact .call _ rfl
  case jsrr => exact .call _ rfl
  case rti => exact .illegal (.inl rfl)
  case res => exact .illegal (.inr rfl)
  case trap v => exact trapService_shape _ v s rfl rfl
  case trapGetc => exact .service _ rfl (.inl ⟨rfl, rfl⟩)
  case trapOut => exact .service _ rfl (.inr (.inl ⟨rfl, rfl⟩))
  case trapPuts => exact .service _ rfl (.inr (.inr (.inl ⟨rfl, rfl⟩)))
  case trapIn => exact .service _ rfl (.inr (.inr (.inr (.inl ⟨rfl, rfl⟩))))
  case trapPutsp => exact .service _ rfl (.inr (.inr (.inr (.inr (.inl ⟨rfl, rfl⟩)))))
  case trapHalt => exact .service _ rfl (.inr (.inr (.inr (.inr (.inr ⟨rfl, rfl⟩)))))
  case trapUnknown => exact .trapLink rfl

/-- The frame of whichever service ran. -/
theorem service_frame {i : Instr} {s t : State}
    (h : (i.canonical = .trapGetc ∧ t = serveGetc s) ∨ (i.canonical = .trapOut ∧ t = serveOut s) ∨
      (i.canonical = .trapPuts ∧ t = servePuts s) ∨ (i.canonical = .trapIn ∧ t = serveIn s) ∨
      (i.canonical = .trapPutsp ∧ t = servePutsp s) ∨ (i.canonical = .trapHalt ∧ t = serveHalt s)) :
    ServiceFrame s t := by
  rcases h with ⟨_, rfl⟩ | ⟨_, rfl⟩ | ⟨_, rfl⟩ | ⟨_, rfl⟩ | ⟨_, rfl⟩ | ⟨_, rfl⟩
  · exact serveGetc_frame s
  · exact serveOut_frame s
  · exact serveString_frame _ _ s
  · exact serveIn_frame s
  · exact serveString_frame _ _ s
  · exact serveHalt_frame s

/-- The effect of whichever service ran. -/
theorem service_effect {i : Instr} {s t : State}
    (h : (i.canonical = .trapGetc ∧ t = serveGetc s) ∨ (i.canonical = .trapOut ∧ t = serveOut s) ∨
      (i.canonical = .trapPuts ∧ t = servePuts s) ∨ (i.canonical = .trapIn ∧ t = serveIn s) ∨
      (i.canonical = .trapPutsp ∧ t = servePutsp s) ∨ (i.canonical = .trapHalt ∧ t = serveHalt s)) :
    ServiceEffect s t := by
  rcases h with ⟨_, rfl⟩ | ⟨_, rfl⟩ | ⟨_, rfl⟩ | ⟨_, rfl⟩ | ⟨_, rfl⟩ | ⟨_, rfl⟩
  · exact serveGetc_effect s
  · exact serveOut_effect s
  · exact serveString_effect _ _ s
  · exact serveIn_effect s
  · exact serveString_effect _ _ s
  · exact serveHalt_effect s

/-! ### Loads -/

theorem loadFrom_eq (dr : Reg) (ea : Word) (s : State) :
    loadFrom dr ea s = writeResult dr (memRead ea s).1 (memRead ea s).2 := rfl

@[simp] theorem loadFrom_reg_same (dr : Reg) (ea : Word) (s : State) : (loadFrom dr ea s).reg dr = (memRead ea s).1 := by
  simp [loadFrom]

@[simp] theorem loadFrom_reg_ne (dr q : Reg) (ea : Word) (s : State) (h : q ≠ dr) :
    (loadFrom dr ea s).reg q = s.reg q := by
  simp [loadFrom, h]

@[simp] theorem loadFrom_cond (dr : Reg) (ea : Word) (s : State) :
    (loadFrom dr ea s).cond = condOf (memRead ea s).1 := by
  simp [loadFrom]

@[simp] theorem loadFrom_pc (dr : Reg) (ea : Word) (s : State) : (loadFrom dr ea s).pc = s.pc := by simp [loadFrom]
@[simp] theorem loadFrom_running (dr : Reg) (ea : Word) (s : State) : (loadFrom dr ea s).running = s.running := by
  simp [loadFrom]
@[simp] theorem loadFrom_status (dr : Reg) (ea : Word) (s : State) : (loadFrom dr ea s).status = s.status := by
  simp [loadFrom]
@[simp] theorem loadFrom_pending (dr : Reg) (ea : Word) (s : State) : (loadFrom dr ea s).pending = s.pending := by
  simp [loadFrom]
@[simp] theorem loadFrom_out (dr : Reg) (ea : Word) (s : State) : (loadFrom dr ea s).out = s.out := by simp [loadFrom]
@[simp] theorem loadFrom_inq (dr : Reg) (ea : Word) (s : State) : (loadFrom dr ea s).inq = (memRead ea s).2.inq := by
  simp [loadFrom]
@[simp] theorem loadFrom_mem (dr : Reg) (ea : Word) (s : State) : (loadFrom dr ea s).mem = (memRead ea s).2.mem := by
  simp [loadFrom]

end Sys2Proof.Machine
end

