-- ==== Sys2Proof/Tests/Slice0.lean ====
section
/-!
SUPPORT. The model's own tests. Expected values come from spec/95_test_vectors.md (the row is named with each) or from the
encodings of spec/30_encoding.md R106 to R116, written out bit by bit. The last part gives a witness for the hypotheses of
every obligation that has some.
-/

namespace Sys2Proof.Tests

open Sys2Proof Sys2Proof.Machine

/-! ### Helpers -/

/-- The reset state with a word at 0x3000. -/
def start (w : Word) : State := State.reset.setMem [(0x3000, w)]

/-- The state with one more cell written. -/
def cell (a v : Word) (s : State) : State := s.setMem (s.mem.write a v)

/-- The state after one step; none if the step answers no next state. -/
def after1 (s : State) : Option State :=
  match step s with
  | .next t => some t
  | _ => none

/-- What a step left of the registers most tests look at: R0, R1, R7, PC, COND. -/
def look (s : State) : Option (Word × Word × Word × Word × Word) :=
  (after1 s).map (fun t => (t.reg .r0, t.reg .r1, t.reg .r7, t.pc, t.cond))

/-- What a step left of a cell. -/
def lookMem (a : Word) (s : State) : Option Word := (after1 s).map (fun t => t.mem.read a)

/-- What a step left of the host channels and the run: input queue, output, status, instruction in progress. -/
def lookHost (s : State) : Option (List Byte × List Byte × RunStatus × Option Pending) :=
  (after1 s).map (fun t => (t.inq, t.out, t.status, t.pending))

/-! ### WellFormed refuses each ill-formed shape -/

theorem test_wf_refuses_br_without_condition : (Instr.br 0#3 5#9).wf = false := by decide
theorem test_wf_refuses_jmp_r7 : (Instr.jmp .r7).wf = false := by decide
theorem test_wf_refuses_trap_parent : (Instr.trap 0x25#8).wf = false ∧ (Instr.trap 0x26#8).wf = false := by decide
theorem test_wf_refuses_trapUnknown_with_service_vector :
    (Instr.trapUnknown 0x20#8).wf = false ∧ (Instr.trapUnknown 0x25#8).wf = false := by decide

/-! ### Decoding: every constructor's word, bit by bit (R106 to R116, R125, R131) -/

theorem test_decode_operate :
    decode (0b0001#4 ++ 0b101#3 ++ 0b001#3 ++ 0b0#1 ++ 0b00#2 ++ 0b010#3) = .addReg .r5 .r1 .r2 ∧
    decode (0b0001#4 ++ 0b101#3 ++ 0b001#3 ++ 0b1#1 ++ 0b11101#5) = .addImm .r5 .r1 0b11101#5 ∧
    decode (0b0101#4 ++ 0b110#3 ++ 0b100#3 ++ 0b0#1 ++ 0b11#2 ++ 0b011#3) = .andReg .r6 .r4 .r3 ∧
    decode (0b0101#4 ++ 0b110#3 ++ 0b100#3 ++ 0b1#1 ++ 0b10000#5) = .andImm .r6 .r4 0b10000#5 ∧
    decode (0b1001#4 ++ 0b001#3 ++ 0b010#3 ++ 0b111111#6) = .not .r1 .r2 := by decide

theorem test_decode_control :
    decode (0b0000#4 ++ 0b010#3 ++ 0b000000011#9) = .br 0b010#3 3#9 ∧
    decode (0b0000#4 ++ 0b000#3 ++ 0b111111111#9) = .nop 0x1FF#9 ∧
    decode (0b1100#4 ++ 0b000#3 ++ 0b010#3 ++ 0b000000#6) = .jmp .r2 ∧
    decode (0b1100#4 ++ 0b000#3 ++ 0b111#3 ++ 0b000000#6) = .ret ∧
    decode (0b0100#4 ++ 0b1#1 ++ 0b10000000001#11) = .jsr 0x401#11 ∧
    decode (0b0100#4 ++ 0b0#1 ++ 0b00#2 ++ 0b011#3 ++ 0b000000#6) = .jsrr .r3 := by decide

theorem test_decode_load :
    decode (0b0010#4 ++ 0b001#3 ++ 0b000000001#9) = .ld .r1 1#9 ∧
    decode (0b1010#4 ++ 0b011#3 ++ 0b100000000#9) = .ldi .r3 0x100#9 ∧
    decode (0b0110#4 ++ 0b010#3 ++ 0b001#3 ++ 0b000010#6) = .ldr .r2 .r1 2#6 ∧
    decode (0b1110#4 ++ 0b100#3 ++ 0b011111111#9) = .lea .r4 0x0FF#9 := by decide

theorem test_decode_store :
    decode (0b0011#4 ++ 0b001#3 ++ 0b000000010#9) = .st .r1 2#9 ∧
    decode (0b1011#4 ++ 0b101#3 ++ 0b000000001#9) = .sti .r5 1#9 ∧
    decode (0b0111#4 ++ 0b111#3 ++ 0b001#3 ++ 0b111111#6) = .str .r7 .r1 63#6 := by decide

theorem test_decode_trap_and_reserved :
    decode (0b1111#4 ++ 0b0000#4 ++ 0b00100000#8) = .trapGetc ∧
    decode (0b1111#4 ++ 0b0000#4 ++ 0b00100001#8) = .trapOut ∧
    decode (0b1111#4 ++ 0b0000#4 ++ 0b00100010#8) = .trapPuts ∧
    decode (0b1111#4 ++ 0b0000#4 ++ 0b00100011#8) = .trapIn ∧
    decode (0b1111#4 ++ 0b0000#4 ++ 0b00100100#8) = .trapPutsp ∧
    decode (0b1111#4 ++ 0b0000#4 ++ 0b00100101#8) = .trapHalt ∧
    decode (0b1111#4 ++ 0b0000#4 ++ 0b00011111#8) = .trapUnknown 0x1F#8 ∧
    decode (0b1000#4 ++ 0b000000000000#12) = .rti ∧
    decode (0b1101#4 ++ 0b000000000001#12) = .res := by decide

/-- The parent row TRAP owns no word: its words are named by the seven alias rows; the term encodes all the same. -/
theorem test_encode_trap_parent :
    encode (.trap 0x22#8) = 0xF022#16 ∧ encode .trapPuts = 0xF022#16 ∧
    decode (encode (.trap 0x22#8)) = .trapPuts := by decide

/-- Ignored bits (95 §2.2, §2.3, §2.7): 105A, 9000, CEBF, 46BF, FF25. -/
theorem test_decode_ignored_bits :
    decode 0x105A#16 = .addReg .r0 .r1 .r2 ∧ decode 0x9000#16 = .not .r0 .r0 ∧ decode 0xCEBF#16 = .jmp .r2 ∧
    decode 0x46BF#16 = .jsrr .r2 ∧ decode 0xFF25#16 = .trapHalt := by decide

/-- The host's entry: a table word of 16 bits; a wider number is no instruction. -/
theorem test_decodeTableWord :
    decodeTableWord 16 0x1023 = some (.addImm .r0 .r0 3#5) ∧ decodeTableWord 16 0xF025 = some .trapHalt ∧
    decodeTableWord 16 0x10000 = none ∧ decodeTableWord 32 0x1023 = none := by decide

/-- 95 §2.1: sext_N. -/
theorem test_sext :
    signExtendLow 5 0x0010#16 = some 0xFFF0#16 ∧ signExtendLow 5 0x003F#16 = some 0xFFFF#16 ∧
    signExtendLow 6 0x001F#16 = some 0x001F#16 ∧ signExtendLow 9 0x0100#16 = some 0xFF00#16 ∧
    signExtendLow 11 0x0400#16 = some 0xFC00#16 ∧ signExtendLow 16 0x8000#16 = some 0x8000#16 ∧
    signExtendLow 0 0x8000#16 = none := by decide

/-! ### ADD, AND, NOT (95 §2.2) -/

theorem test_addReg_wraps :
    look (((start 0x1042#16).setReg .r1 0xFFFF#16).setReg .r2 0x0001#16) =
      some (0x0000#16, 0xFFFF#16, 0x0000#16, 0x3001#16, 0x0002#16) := by decide
theorem test_addReg_source_is_destination :
    look ((start 0x1241#16).setReg .r1 0x4000#16) =
      some (0x0000#16, 0x8000#16, 0x0000#16, 0x3001#16, 0x0004#16) := by decide
theorem test_addImm_negative :
    look ((start 0x1030#16).setReg .r0 0x0010#16) =
      some (0x0000#16, 0x0000#16, 0x0000#16, 0x3001#16, 0x0002#16) := by decide
theorem test_addImm_pc_wraps :
    look ((cell 0xFFFF#16 0x1021#16 State.reset).setPc 0xFFFF#16) =
      some (0x0001#16, 0x0000#16, 0x0000#16, 0x0000#16, 0x0001#16) := by decide
theorem test_andReg :
    look (((start 0x5042#16).setReg .r1 0xF0F0#16).setReg .r2 0x0FF0#16) =
      some (0x00F0#16, 0xF0F0#16, 0x0000#16, 0x3001#16, 0x0001#16) := by decide
theorem test_andImm_sign_extends :
    look ((start 0x5070#16).setReg .r1 0xABCD#16) =
      some (0xABC0#16, 0xABCD#16, 0x0000#16, 0x3001#16, 0x0004#16) := by decide
theorem test_not :
    look ((start 0x9000#16).setReg .r0 0x8000#16) =
      some (0x7FFF#16, 0x0000#16, 0x0000#16, 0x3001#16, 0x0001#16) := by decide

/-! ### BR, NOP, JMP, RET, JSR, JSRR (95 §2.3) -/

/-- The table of nzp against COND: the end PC of BR #5 at 0x3000. -/
theorem test_br_table :
    [0x0205#16, 0x0405#16, 0x0605#16, 0x0805#16, 0x0A05#16, 0x0C05#16, 0x0E05#16].map (fun w =>
      [0x0004#16, 0x0002#16, 0x0001#16].map (fun c => (after1 ((start w).setCond c)).map (fun t => t.pc))) =
    [[some 0x3001#16, some 0x3001#16, some 0x3006#16], [some 0x3001#16, some 0x3006#16, some 0x3001#16],
     [some 0x3001#16, some 0x3006#16, some 0x3006#16], [some 0x3006#16, some 0x3001#16, some 0x3001#16],
     [some 0x3006#16, some 0x3001#16, some 0x3006#16], [some 0x3006#16, some 0x3006#16, some 0x3001#16],
     [some 0x3006#16, some 0x3006#16, some 0x3006#16]] := by decide
theorem test_br_wraps :
    look ((cell 0x0010#16 0x0F00#16 State.reset).setPc 0x0010#16) =
      some (0x0000#16, 0x0000#16, 0x0000#16, 0xFF11#16, 0x0002#16) := by decide
theorem test_nop :
    look (start 0x0005#16) = some (0x0000#16, 0x0000#16, 0x0000#16, 0x3001#16, 0x0002#16) := by decide
theorem test_jmp :
    look (((start 0xCEBF#16).setReg .r2 0xFE00#16).setReg .r7 0x1111#16) =
      some (0x0000#16, 0x0000#16, 0x1111#16, 0xFE00#16, 0x0002#16) := by decide
theorem test_ret :
    look ((start 0xC1C0#16).setReg .r7 0x1234#16) =
      some (0x0000#16, 0x0000#16, 0x1234#16, 0x1234#16, 0x0002#16) := by decide
theorem test_jsr_reach :
    look (start 0x4C00#16) = some (0x0000#16, 0x0000#16, 0x3001#16, 0x2C01#16, 0x0002#16) ∧
    look (start 0x4BFF#16) = some (0x0000#16, 0x0000#16, 0x3001#16, 0x3400#16, 0x0002#16) := by decide
theorem test_jsr_link_wraps :
    look ((cell 0xFFFF#16 0x4801#16 State.reset).setPc 0xFFFF#16) =
      some (0x0000#16, 0x0000#16, 0x0000#16, 0x0001#16, 0x0002#16) := by decide
theorem test_jsrr :
    look ((start 0x46BF#16).setReg .r2 0x5000#16) =
      some (0x0000#16, 0x0000#16, 0x3001#16, 0x5000#16, 0x0002#16) := by decide
/-- R166: JSRR with base R7 falls through (decision D2, log entry 3). -/
theorem test_jsrr_r7_falls_through :
    look ((start 0x41C0#16).setReg .r7 0x5000#16) =
      some (0x0000#16, 0x0000#16, 0x3001#16, 0x3001#16, 0x0002#16) := by decide

/-! ### LD, LDI, LDR, LEA and the keyboard (R181 to R184; 95 §1.1 S3, §2.6 K1 to K11) -/

theorem test_ld :
    look (cell 0x3002#16 0xBEEF#16 (start 0x2201#16)) =
      some (0x0000#16, 0xBEEF#16, 0x0000#16, 0x3001#16, 0x0004#16) := by decide
theorem test_ldi :
    look (cell 0x4000#16 0x1234#16 (cell 0x3002#16 0x4000#16 (cell 0x3001#16 0xA200#16 (State.reset.setPc 0x3001#16)))) =
      some (0x0000#16, 0x1234#16, 0x0000#16, 0x3002#16, 0x0001#16) := by decide
/-- K8: the pointer itself read from KBSR. -/
theorem test_ldi_pointer_at_kbsr :
    (after1 ((cell 0x8000#16 0x0077#16 (cell 0xFDFF#16 0xA000#16 (State.reset.setPc 0xFDFF#16))).setInq [0x5A#8])).map
      (fun t => (t.reg .r0, t.cond, t.pc, t.inq, t.mem.read 0xFE00#16, t.mem.read 0xFE02#16)) =
    some (0x0077#16, 0x0001#16, 0xFE00#16, [], 0x8000#16, 0x005A#16) := by decide
/-- K4: a zero byte is a byte. -/
theorem test_ldr_polls_zero_byte :
    (after1 (((start 0x6040#16).setReg .r1 0xFE00#16).setInq [0x00#8])).map
      (fun t => (t.reg .r0, t.cond, t.inq, t.mem.read 0xFE02#16)) =
    some (0x8000#16, 0x0004#16, [], 0x0000#16) := by decide
theorem test_ldr_offset :
    (after1 (cell 0x4002#16 0x0007#16 ((start 0x6442#16).setReg .r1 0x4000#16))).map (fun t => (t.reg .r2, t.cond)) =
      some (0x0007#16, 0x0001#16) := by decide
/-- K2: with nothing pending the poll clears KBSR and leaves KBDR. -/
theorem test_ldr_poll_empty :
    (after1 (cell 0xFE02#16 0x0055#16 (cell 0xFE00#16 0x8000#16 ((start 0x6040#16).setReg .r1 0xFE00#16)))).map
      (fun t => (t.reg .r0, t.cond, t.mem.read 0xFE00#16, t.mem.read 0xFE02#16)) =
    some (0x0000#16, 0x0002#16, 0x0000#16, 0x0055#16) := by decide
/-- K3: reading KBDR neither polls nor clears. -/
theorem test_ld_kbdr_is_pure :
    (after1 ((cell 0xFE02#16 0x0041#16 (cell 0xFE00#16 0x8000#16 ((start 0x6040#16).setReg .r1 0xFE02#16))).setInq
      [0x42#8])).map (fun t => (t.reg .r0, t.cond, t.mem.read 0xFE00#16, t.inq)) =
    some (0x0041#16, 0x0001#16, 0x8000#16, [0x42#8]) := by decide
theorem test_lea :
    look (start 0xE001#16) = some (0x3002#16, 0x0000#16, 0x0000#16, 0x3001#16, 0x0001#16) ∧
    look ((cell 0xFFFF#16 0xE000#16 (State.reset.setCond 0x0004#16)).setPc 0xFFFF#16) =
      some (0x0000#16, 0x0000#16, 0x0000#16, 0x0000#16, 0x0002#16) := by decide
/-- K6, K7: a fetch from KBSR polls. -/
theorem test_fetch_at_kbsr :
    (after1 ((State.reset.setPc 0xFE00#16).setInq [0x51#8])).map
      (fun t => (t.status, t.pc, t.mem.read 0xFE02#16, t.inq)) =
      some (.faultIllegalOpcode, 0xFE01#16, 0x0051#16, []) ∧
    (after1 (cell 0xFE00#16 0x1234#16 (State.reset.setPc 0xFE00#16))).map
      (fun t => (t.status, t.pc, t.mem.read 0xFE00#16)) = some (.running, 0xFE01#16, 0x0000#16) := by decide

/-! ### ST, STI, STR (R201 to R203; 95 §2.6 K10, K11) -/

theorem test_st :
    lookMem 0x3003#16 ((start 0x3202#16).setReg .r1 0xABCD#16) = some 0xABCD#16 := by decide
theorem test_sti :
    lookMem 0x5000#16 (cell 0x3002#16 0x5000#16 ((start 0xB201#16).setReg .r1 0x0042#16)) = some 0x0042#16 ∧
    lookMem 0x3002#16 (cell 0x3002#16 0x5000#16 ((start 0xB201#16).setReg .r1 0x0042#16)) = some 0x5000#16 := by decide
/-- K10: the pointer read polls. -/
theorem test_sti_pointer_at_kbsr :
    (after1 (((cell 0xFDFF#16 0xB200#16 (State.reset.setPc 0xFDFF#16)).setReg .r1 0xBEEF#16).setInq [0x5A#8])).map
      (fun t => (t.mem.read 0x8000#16, t.mem.read 0xFE00#16, t.mem.read 0xFE02#16, t.inq)) =
    some (0xBEEF#16, 0x8000#16, 0x005A#16, []) := by decide
theorem test_str :
    lookMem 0x4000#16 (((start 0x7E7F#16).setReg .r1 0x4001#16).setReg .r7 0x3005#16) = some 0x3005#16 := by decide
/-- K11: a store to KBSR is a plain store, with no host effect. -/
theorem test_str_kbsr_is_plain :
    (after1 ((((start 0x7280#16).setReg .r1 0x1234#16).setReg .r2 0xFE00#16).setInq [0x42#8])).map
      (fun t => (t.mem.read 0xFE00#16, t.inq, t.out)) = some (0x1234#16, [0x42#8], []) := by decide

/-! ### RTI, RES (95 §2.8) -/

theorem test_rti_faults :
    (after1 (start 0x8FFF#16)).map (fun t => (t.status, t.pc, t.running)) =
      some (.faultIllegalOpcode, 0x3001#16, true) := by decide
theorem test_res_writes_no_link :
    (after1 ((start 0xDFFF#16).setReg .r7 0x1111#16)).map (fun t => (t.status, t.pc, t.reg .r7)) =
      some (.faultIllegalOpcode, 0x3001#16, 0x1111#16) := by decide
theorem test_no_step_after_fault :
    step (State.reset.setStatus .faultIllegalOpcode) = .fault .illegalOpcode ∧
    step (State.reset.setStatus .faultIo) = .fault .ioFault ∧ step State.reset.halt = .fault .halted :=
  ⟨rfl, rfl, rfl⟩

/-! ### TRAP (95 §2.7) -/

theorem test_getc :
    look (((start 0xF020#16).setReg .r0 0xAB00#16).setInq [0xFF#8]) =
      some (0x00FF#16, 0x0000#16, 0x3001#16, 0x3001#16, 0x0001#16) ∧
    lookHost ((start 0xF020#16).setInq [0x61#8]) = some ([], [], .running, none) := by decide
theorem test_getc_waits_or_fails :
    lookHost (start 0xF020#16) = some ([], [], .running, some .getc) ∧
    lookHost { start 0xF020#16 with inputFails := true } = some ([], [], .faultIo, none) := by decide
theorem test_out :
    lookHost ((start 0xF021#16).setReg .r0 0x1241#16) = some ([], [0x41#8], .running, none) ∧
    lookHost (((start 0xF021#16).setReg .r0 0x0041#16).setOut [] (some 0)) = some ([], [], .faultIo, none) := by decide
theorem test_puts_wraps :
    lookHost (cell 0xFFFF#16 0x0041#16 (cell 0x0000#16 0x0042#16 ((start 0xF022#16).setReg .r0 0xFFFF#16))) =
      some ([], [0x41#8, 0x42#8], .running, none) := by decide
/-- 95 §2.7: a word above 0x007F is written as PUTS_RENDER writes it, whatever that is. -/
theorem test_puts_open_rendering :
    servePuts (cell 0x4000#16 0x00E9#16 (State.reset.setReg .r0 0x4000#16)) =
      writeThen (Config.putsRenderOpen 0x00E9#16 ++ []) id (cell 0x4000#16 0x00E9#16 (State.reset.setReg .r0 0x4000#16)) := by
  rfl
theorem test_in :
    lookHost ((start 0xF023#16).setInq [0x79#8]) =
      some ([], [0x45#8, 0x6E#8, 0x74#8, 0x65#8, 0x72#8, 0x20#8, 0x63#8, 0x68#8, 0x61#8, 0x72#8, 0x61#8, 0x63#8,
        0x74#8, 0x65#8, 0x72#8, 0x3A#8, 0x20#8, 0x79#8], .running, none) ∧
    look ((start 0xF023#16).setInq [0x79#8]) = some (0x0079#16, 0x0000#16, 0x3001#16, 0x3001#16, 0x0001#16) := by decide
theorem test_in_waits_after_prompt :
    lookHost (start 0xF023#16) =
      some ([], [0x45#8, 0x6E#8, 0x74#8, 0x65#8, 0x72#8, 0x20#8, 0x63#8, 0x68#8, 0x61#8, 0x72#8, 0x61#8, 0x63#8,
        0x74#8, 0x65#8, 0x72#8, 0x3A#8, 0x20#8], .running, some .inp) := by decide
theorem test_putsp :
    lookHost (cell 0x4002#16 0x4443#16 (cell 0x4001#16 0x0042#16 (cell 0x4000#16 0x4100#16
      ((start 0xF024#16).setReg .r0 0x4000#16)))) =
      some ([], [0x00#8, 0x41#8, 0x42#8, 0x43#8, 0x44#8], .running, none) := by decide
theorem test_halt :
    (after1 (start 0xF125#16)).map (fun t => (t.out, t.running, t.status, t.reg .r7, t.pc)) =
      some ([0x48#8, 0x41#8, 0x4C#8, 0x54#8], false, .halted, 0x3001#16, 0x3001#16) := by decide
theorem test_trapUnknown :
    look ((start 0xFFFF#16).setCond 0x0004#16) =
      some (0x0000#16, 0x0000#16, 0x3001#16, 0x3001#16, 0x0004#16) := by decide

/-! ### The loader (95 §2.9) and the host's fetch word -/

/-- What loading leaves at two addresses. -/
def lookLoad (images : List (List Byte)) (a b : Word) : Option (Word × Word) :=
  match loadImages (images.map some) State.reset with
  | .ok s => some (s.mem.read a, s.mem.read b)
  | .error _ => none

theorem test_load :
    lookLoad [[0x30#8, 0x00#8, 0x10#8, 0x23#8, 0xF0#8, 0x25#8]] 0x3000#16 0x3001#16 = some (0x1023#16, 0xF025#16) ∧
    lookLoad [[0xFF#8, 0xFF#8, 0xAA#8, 0xAA#8, 0xBB#8, 0xBB#8]] 0xFFFF#16 0x0000#16 = some (0xAAAA#16, 0x0000#16) ∧
    lookLoad [[0x30#8, 0x00#8, 0x12#8, 0x34#8, 0x56#8]] 0x3000#16 0x3001#16 = some (0x1234#16, 0x0000#16) ∧
    lookLoad [[0x30#8]] 0x3000#16 0x3001#16 = none := by decide
theorem test_load_later_image_wins :
    lookLoad [[0x30#8, 0x00#8, 0x11#8, 0x11#8, 0x22#8, 0x22#8], [0x30#8, 0x01#8, 0x33#8, 0x33#8]] 0x3000#16 0x3001#16 =
      some (0x1111#16, 0x3333#16) := by decide
theorem test_withFetchWord :
    look (State.reset.withFetchWord 16 0x1023) = some (0x0003#16, 0x0000#16, 0x0000#16, 0x3001#16, 0x0001#16) ∧
    look ((State.reset.setPc 0xFE00#16).withFetchWord 16 0x1023) =
      some (0x0003#16, 0x0000#16, 0x0000#16, 0x3001#16, 0x0001#16) := by decide

/-! ### Witnesses: for each obligation with hypotheses, a state and operands that meet them -/

theorem witness_DecodeOfEncode :
    (Instr.addImm .r7 .r0 31#5).wf = true ∧ (Instr.br 1#3 0x1FF#9).wf = true ∧ (Instr.trapUnknown 0x26#8).wf = true := by
  decide

theorem witness_IgnoredBits :
    (0x105A#16 &&& 0xF020#16 = 0x1000#16) ∧ (0x505A#16 &&& 0xF020#16 = 0x5000#16) ∧ (0x9000#16 &&& 0xF000#16 = 0x9000#16) ∧
    (0xCEBF#16 &&& 0xF000#16 = 0xC000#16) ∧ (0x46BF#16 &&& 0xF800#16 = 0x4000#16) ∧ (0xFF25#16 &&& 0xF000#16 = 0xF000#16) ∧
    (0x8FFF#16 &&& 0xF000#16 = 0x8000#16) ∧ (0xDFFF#16 &&& 0xF000#16 = 0xD000#16) := by decide

theorem witness_RowsPartition :
    (⟨0xF800#16, 0x4000#16⟩ : EncRow) ∈ primaryRows ∧ (⟨0xF800#16, 0x4000#16⟩ : EncRow).has 0x46BF#16 = true := by decide

theorem witness_AliasRunsAsItsParent :
    (∀ v, Instr.trap 0x20#8 = .trapUnknown v → isServiceVector v = false) ∧
    (∀ v, Instr.trapUnknown 0x26#8 = .trapUnknown v → isServiceVector v = false) := by
  refine ⟨fun v h => ?_, fun v h => ?_⟩
  · cases h
  · cases h; decide

theorem witness_SignExtensionLaws :
    (signExtendLow 1 0x0001#16 = some 0xFFFF#16 ∧ 2 ^ (1 - 1) ≤ (0x0001#16).toNat % 2 ^ 1) ∧
    (signExtendLow 15 0x3FFF#16 = some 0x3FFF#16 ∧ (0x3FFF#16).toNat % 2 ^ 15 < 2 ^ (15 - 1)) ∧
    (16 ≤ 16 ∧ signExtendLow 16 0x8000#16 = some 0x8000#16) := by decide

theorem witness_StepKeepsTheInvariant :
    (start 0xF023#16).Inv ∧ (after1 (start 0xF023#16)).isSome = true := by decide

theorem witness_LoadedRuns : ∃ s t : State,
    loadImages [some [0x30#8, 0x00#8, 0x10#8, 0x23#8]] State.reset = .ok s ∧
    Reaches { s with inq := [0x41#8], schedule := [], oracleTurn := some 0, inputFails := false, writesLeft := some 3 } t ∧
    t.reg .r0 = 3#16 :=
  ⟨_, _, rfl, .step .here rfl, by decide⟩

theorem witness_StepRunsTheDecodedInstruction :
    (Runs (start 0x1023#16) ∧ (start 0x1023#16).pending = none ∧ (start 0x1023#16).pc ≠ 0xFE00#16) ∧
    (Runs (State.reset.setPc 0xFE00#16) ∧ (State.reset.setPc 0xFE00#16).pending = none ∧
      (State.reset.setPc 0xFE00#16).pc = 0xFE00#16) := by decide

theorem witness_StepGoesOn :
    Runs (State.reset.setPending (some .getc)) ∧ (State.reset.setPending (some .getc)).pending = some .getc ∧
    Runs (State.reset.setPending (some .puts)) ∧ (State.reset.setPending (some .puts)).pending = some .puts := by decide

theorem witness_StepExists :
    Runs State.reset ∧ State.reset.halt.status = .halted ∧
    ({ State.reset with running := false }.status = .running ∧ { State.reset with running := false }.running = false) ∧
    (State.reset.setStatus .faultIllegalOpcode).status = .faultIllegalOpcode ∧
    (State.reset.setStatus .faultIo).status = .faultIo := by decide

theorem witness_OnlyHaltEndsTheRunNormally :
    (after1 (start 0xF025#16)).map (fun t => (t.running, t.status)) = some (false, .halted) := by decide

theorem witness_FaultSources :
    (after1 (start 0xD123#16)).map (fun t => t.status) = some .faultIllegalOpcode ∧
    (after1 ((start 0xF025#16).setOut [] (some 3))).map (fun t => t.status) = some .faultIo ∧
    (after1 { State.reset with pending := some .getc, inputFails := true }).map (fun t => t.status) = some .faultIo := by
  decide

theorem witness_InputAndOutput :
    (after1 { start 0xF020#16 with schedule := [⟨[0x41#8, 0x42#8], false⟩] }).map (fun t => (t.inq, t.schedule, t.out)) =
      some ([0x42#8], [], []) ∧
    (after1 ((start 0xF020#16).setInq [0x41#8])).map (fun t => (t.inq, t.schedule)) = some ([], []) ∧
    (after1 { start 0x1023#16 with oracleTurn := some 0 }).map (fun t => (t.schedule, t.oracleTurn)) = some ([], some 1) := by
  decide

theorem witness_Writers :
    (∃ t, exec (.addImm .r3 .r0 1#5) State.reset = .next t ∧ t.reg .r3 ≠ State.reset.reg .r3) ∧
    (∃ t, exec (.trapUnknown 0x00#8) State.reset = .next t ∧ t.reg .r7 ≠ State.reset.reg .r7) ∧
    (∃ t, exec .trapGetc (State.reset.setInq [0x41#8]) = .next t ∧ t.reg .r0 ≠ State.reset.reg .r0) ∧
    (∃ t, exec (.jsr 5#11) State.reset = .next t ∧ t.pc ≠ State.reset.pc) ∧
    (∃ t, exec (.st .r1 0#9) (State.reset.setReg .r1 5#16) = .next t ∧
      t.mem.read 0x3000#16 ≠ (State.reset.setReg .r1 5#16).mem.read 0x3000#16) ∧
    (∃ t, exec (.ldr .r1 .r0 0#6) ((State.reset.setReg .r0 0xFE00#16).setInq [0x41#8]) = .next t ∧
      t.mem.read 0xFE02#16 ≠ ((State.reset.setReg .r0 0xFE00#16).setInq [0x41#8]).mem.read 0xFE02#16) :=
  ⟨⟨_, rfl, by decide⟩, ⟨_, rfl, by decide⟩, ⟨_, rfl, by decide⟩, ⟨_, rfl, by decide⟩, ⟨_, rfl, by decide⟩,
    ⟨_, rfl, by decide⟩⟩

theorem witness_OnlyBranchReadsCond : ∀ nzp off, Instr.trapGetc ≠ .br nzp off := by intro _ _ h; cases h

theorem witness_WriteThenRead :
    0xFE02#16 ≠ 0xFE00#16 ∧ 0xFE01#16 ≠ 0xFE00#16 ∧ 0xFDFF#16 ≠ 0xFE00#16 := by decide

theorem witness_BusRead :
    (0xFE01#16 ≠ 0xFE00#16) ∧ ((State.reset.setInq [0x41#8, 0x42#8]).inq = 0x41#8 :: [0x42#8]) ∧ State.reset.inq = [] := by
  decide

theorem witness_StoreIsSeenByTheNextFetch : ∃ t,
    exec (.st .r1 0#9) ((State.reset.setPc 0x3001#16).setReg .r1 0x1025#16) = .next t ∧ Runs t ∧ t.pending = none ∧
    ((State.reset.setPc 0x3001#16).setReg .r1 0x1025#16).pc ≠ 0xFE00#16 :=
  ⟨_, rfl, by decide, rfl, by decide⟩

theorem witness_OperateWords :
    0x105A#16 &&& 0xF020#16 = 0x1000#16 ∧ 0x103F#16 &&& 0xF020#16 = 0x1020#16 ∧ 0x5042#16 &&& 0xF020#16 = 0x5000#16 ∧
    0x5070#16 &&& 0xF020#16 = 0x5020#16 ∧ 0x903F#16 &&& 0xF000#16 = 0x9000#16 := by decide

theorem witness_BranchOnCond :
    (0x0205#16 &&& 0xF000#16 = 0x0000#16 ∧ (0x0205#16).extractLsb' 9 3 ≠ 0#3) ∧
    (0x01FF#16 &&& 0xF000#16 = 0x0000#16 ∧ (0x01FF#16).extractLsb' 9 3 = 0#3) ∧
    (∃ i < 3, (0b010#3).getLsbD i = true ∧ State.reset.cond.getLsbD i = true) ∧
    (∀ i < 3, ¬ ((0b101#3).getLsbD i = true ∧ State.reset.cond.getLsbD i = true)) := by
  refine ⟨by decide, by decide, ⟨1, by decide, by decide⟩, by decide⟩

theorem witness_JumpWords :
    (0xCEBF#16 &&& 0xF000#16 = 0xC000#16 ∧ (0xCEBF#16).extractLsb' 6 3 ≠ 7#3) ∧
    (0xC1C0#16 &&& 0xF000#16 = 0xC000#16 ∧ (0xC1C0#16).extractLsb' 6 3 = 7#3) ∧
    0x4FFF#16 &&& 0xF800#16 = 0x4800#16 ∧ 0x47FF#16 &&& 0xF800#16 = 0x4000#16 ∧ Reg.r6 ≠ .r7 ∧ Reg.r7 = .r7 := by decide

theorem witness_MemoryWords :
    0x2201#16 &&& 0xF000#16 = 0x2000#16 ∧ 0xA200#16 &&& 0xF000#16 = 0xA000#16 ∧ 0x6442#16 &&& 0xF000#16 = 0x6000#16 ∧
    0xE001#16 &&& 0xF000#16 = 0xE000#16 ∧ 0x3202#16 &&& 0xF000#16 = 0x3000#16 ∧ 0xB201#16 &&& 0xF000#16 = 0xB000#16 ∧
    0x7E7F#16 &&& 0xF000#16 = 0x7000#16 := by decide

theorem witness_ReservedOpcodesFault :
    0x8000#16 &&& 0xF000#16 = 0x8000#16 ∧ 0x8FFF#16 &&& 0xF000#16 = 0x8000#16 ∧ 0xD000#16 &&& 0xF000#16 = 0xD000#16 ∧
    0xDFFF#16 &&& 0xF000#16 = 0xD000#16 ∧ (Instr.rti = .rti ∨ Instr.rti = .res) := by decide

theorem witness_TrapLinksAndDispatches :
    (0xFF20#16 &&& 0xF000#16 = 0xF000#16 ∧ (0xFF20#16).extractLsb' 0 8 = 0x20#8 ∧ (0xF025#16).extractLsb' 0 8 = 0x25#8) ∧
    (Instr.trapPuts.row = ⟨0xF000#16, 0xF000#16⟩ ∧ ∃ t, exec .trapPuts State.reset = .next t) :=
  ⟨by decide, rfl, _, rfl⟩

theorem witness_Getc :
    (State.reset.setInq [0x00#8]).inq = 0x00#8 :: [] ∧ (State.reset.inq = [] ∧ State.reset.inputFails = false) ∧
    ({ State.reset with inputFails := true }.inq = [] ∧ { State.reset with inputFails := true }.inputFails = true) := by
  decide

/-- A host that never fails takes any number of bytes. -/
theorem hostTakes_none (s : State) (n : Nat) (h : s.writesLeft = none) : HostTakes s n := by
  intro m hm; rw [h] at hm; cases hm

/-- A host that takes `k` more bytes takes up to `k`. -/
theorem hostTakes_some (s : State) (k n : Nat) (h : s.writesLeft = some k) (hk : n ≤ k) : HostTakes s n := by
  intro m hm; rw [h] at hm; cases hm; exact hk

theorem witness_Out :
    HostTakes State.reset 1 ∧ HostTakes (State.reset.setOut [] (some 1)) 1 ∧
    (State.reset.setOut [] (some 0)).writesLeft = some 0 :=
  ⟨hostTakes_none _ _ rfl, hostTakes_some _ 1 _ rfl (Nat.le_refl _), rfl⟩

/-- S6: the string Hi! at 0x4000, R0 pointing to it; for PUTS and, packed, for PUTSP. -/
def hi : State :=
  cell 0x4002#16 0x0021#16 (cell 0x4001#16 0x0069#16 (cell 0x4000#16 0x0048#16 (State.reset.setReg .r0 0x4000#16)))

theorem witness_Puts :
    StringAt hi.mem (hi.reg .r0) [0x0048#16, 0x0069#16, 0x0021#16] ∧ StringAt State.reset.mem (State.reset.reg .r0) [] ∧
    HostTakes hi ([0x0048#16, 0x0069#16, 0x0021#16].flatMap Config.putsRender).length ∧
    ((hi.setOut [] (some 2)).writesLeft = some 2 ∧ 2 < ([0x0048#16, 0x0069#16, 0x0021#16].flatMap Config.putsRender).length) ∧
    (0x007F#16).toNat ≤ 0x007F := by
  refine ⟨⟨by decide, by decide, by decide⟩, ⟨by decide, by decide, by decide⟩, hostTakes_none _ _ rfl, ⟨rfl, by decide⟩,
    by decide⟩

theorem witness_Putsp :
    StringAt hi.mem (hi.reg .r0) [0x0048#16, 0x0069#16, 0x0021#16] ∧
    [0x48#8, 0x69#8, 0x21#8] = [0x0048#16, 0x0069#16, 0x0021#16].flatMap
      (fun w : Word => if w.toNat < 256 then [w.setWidth 8] else [w.setWidth 8, (w >>> 8).setWidth 8]) ∧
    HostTakes hi 3 ∧ ((hi.setOut [] (some 2)).writesLeft = some 2 ∧ 2 < [0x48#8, 0x69#8, 0x21#8].length) :=
  ⟨⟨by decide, by decide, by decide⟩, by decide, hostTakes_none _ _ rfl, rfl, by decide⟩

theorem witness_In :
    ((State.reset.setInq [0x79#8]).inq = 0x79#8 :: [] ∧ HostTakes (State.reset.setInq [0x79#8]) 18) ∧
    (((State.reset.setInq [0x79#8]).setOut [] (some 17)).inq = 0x79#8 :: [] ∧
      ((State.reset.setInq [0x79#8]).setOut [] (some 17)).writesLeft = some 17) ∧
    ((State.reset.setOut [] (some 16)).writesLeft = some 16 ∧ 16 < 17) ∧
    ((State.reset.setOut [] (some 17)).inq = [] ∧ HostTakes (State.reset.setOut [] (some 17)) 17 ∧
      (State.reset.setOut [] (some 17)).inputFails = false) ∧
    ({ State.reset with inputFails := true }.inq = [] ∧ HostTakes { State.reset with inputFails := true } 17 ∧
      { State.reset with inputFails := true }.inputFails = true) :=
  ⟨⟨rfl, hostTakes_none _ _ rfl⟩, ⟨rfl, rfl⟩, ⟨rfl, by decide⟩, ⟨rfl, hostTakes_some _ 17 _ rfl (Nat.le_refl _), rfl⟩,
    ⟨rfl, hostTakes_none _ _ rfl, rfl⟩⟩

/-- `n` cells from address `lo` on, each holding 0x0001. -/
def ones (lo : Nat) : Nat → Memory
  | 0 => []
  | n + 1 => (lo, 0x0001#16) :: ones (lo + 1) n

theorem lookup_ones (n lo k : Nat) (h : lo ≤ k) (h' : k < lo + n) : Memory.lookup (ones lo n) k = 0x0001#16 := by
  induction n generalizing lo with
  | zero => omega
  | succ n ih =>
    unfold ones Memory.lookup
    split
    · rfl
    · next hne => exact ih (lo + 1) (by have : lo ≠ k := hne; omega) (by omega)

/-- A memory with no zero word, and a host that takes everything. -/
theorem witness_StringWithoutEnd :
    (∀ a : Word, (State.reset.setMem (ones 0 65536)).mem.read a ≠ 0x0000#16) ∧
    (∀ n, HostTakes (State.reset.setMem (ones 0 65536)) n) ∧
    (Runs ((State.reset.setMem (ones 0 65536)).setPending (some .putsp)) ∧
      ((State.reset.setMem (ones 0 65536)).setPending (some .putsp)).writesLeft = none) ∧
    (((State.reset.setMem (ones 0 65536)).setOut [] (some 0)).writesLeft = some 0 ∧
      ∀ ws : List Word, ws.length = 65536 → 0 < (ws.flatMap putspRender).length) := by
  refine ⟨fun a h => ?_, fun n => hostTakes_none _ _ rfl, ⟨⟨rfl, rfl⟩, rfl⟩, rfl, fun ws h => ?_⟩
  rotate_left
  · cases ws with
    | nil => cases h
    | cons w rest =>
      rw [List.flatMap_cons, List.length_append]
      refine Nat.lt_of_lt_of_le ?_ (Nat.le_add_right _ _)
      unfold putspRender
      split <;> simp
  have h1 : Memory.lookup (ones 0 65536) a.toNat = 0x0001#16 := lookup_ones _ _ _ (Nat.zero_le _) (by have := a.isLt; omega)
  have h2 : Memory.lookup (ones 0 65536) a.toNat = 0x0000#16 := h
  rw [h1] at h2
  exact absurd h2 (by decide)

theorem witness_Halt :
    HostTakes (State.reset.setOut [] (some 4)) 4 ∧ ((State.reset.setOut [] (some 3)).writesLeft = some 3 ∧ 3 < 4) :=
  ⟨hostTakes_some _ 4 _ rfl (Nat.le_refl _), rfl, by decide⟩

theorem witness_UnknownVector :
    ((0x1F#8).toNat < 0x20 ∨ 0x25 < (0x1F#8).toNat) ∧ ((0x26#8).toNat < 0x20 ∨ 0x25 < (0x26#8).toNat) ∧
    (0xF01F#16 &&& 0xF000#16 = 0xF000#16 ∧ (0xF01F#16).extractLsb' 0 8 = 0x1F#8) := by decide

theorem witness_Waiting :
    Runs (State.reset.setPending (some .getc)) ∧ (State.reset.setPending (some .getc)).pending = some .getc ∧
    Runs (State.reset.setPending (some .inp)) ∧ (State.reset.setPending (some .inp)).pending = some .inp ∧
    ((hostTurn (State.reset.setPending (some .inp))).inq = [] ∧
      (hostTurn (State.reset.setPending (some .inp))).inputFails = false) ∧
    ((hostTurn { State.reset with pending := some .inp, schedule := [⟨[], true⟩] }).inq = [] ∧
      (hostTurn { State.reset with pending := some .inp, schedule := [⟨[], true⟩] }).inputFails = true) ∧
    (hostTurn { State.reset with pending := some .inp, schedule := [⟨[0x41#8], false⟩] }).inq = 0x41#8 :: [] ∧
    HostTakes (State.reset.setPending (some .inp)) 1 ∧
    ((State.reset.setPending (some .inp)).setOut [] (some 0)).writesLeft = some 0 :=
  ⟨by decide, rfl, by decide, rfl, ⟨rfl, rfl⟩, ⟨rfl, rfl⟩, rfl, hostTakes_none _ _ rfl, rfl⟩

theorem witness_Loader :
    (0xFFFF = (0xFF#8).toNat * 256 + (0xFF#8).toNat ∧ 0xFFFF + [(0xAA#8, 0xAA#8)].length ≤ 65536) ∧
    (0xFF#8).toNat * 256 + (0xFF#8).toNat + [(0xAA#8, 0xAA#8)].length = 65536 ∧
    (∃ t, loadFile (some [0x30#8, 0x00#8]) State.reset = .ok t) ∧ loadFile none State.reset = .error .unreadable :=
  ⟨by decide, by decide, ⟨_, rfl⟩, rfl⟩

end Sys2Proof.Tests
end

/-!
PROOF. Sign extension from N bits (spec/00_scope.md R9): what `sext` keeps of a field, and O7.
-/

namespace Sys2Proof.Machine

/-- From N = 1 on the source's sign_extend has a value (R9). -/
theorem signExtendLow_pos {n : Nat} (hn : 1 ≤ n) (x : Word) : signExtendLow n x = some (sext (x.setWidth n)) :=
  if_neg (by omega)

/-- A field of sixteen bits or more holds the whole word, and extending it changes nothing. -/
theorem sext_setWidth_of_ge {n : Nat} (hn : 16 ≤ n) (x : Word) : sext (x.setWidth n) = x := by
  rw [sext, BitVec.signExtend_eq_setWidth_of_le _ hn, BitVec.setWidth_setWidth_of_le _ hn, BitVec.setWidth_eq]

/-- The low bits of an extended field are the field. -/
theorem setWidth_sext {n : Nat} (hn : n ≤ 16) (f : BitVec n) : (sext f).setWidth n = f := by
  apply BitVec.eq_of_getElem_eq
  intro i hi
  have hi16 : i < 16 := by omega
  simp [sext, BitVec.getElem_signExtend, hi, hi16]

/-- Extending keeps the signed value of the field. -/
theorem sext_toInt {n : Nat} (hn : n ≤ 16) (f : BitVec n) : (sext f).toInt = f.toInt :=
  BitVec.toInt_signExtend_of_le hn

/-- What sign_extend answers, it answers again for its own answer. -/
theorem signExtendLow_sext {n : Nat} (hn : 1 ≤ n) (x : Word) :
    signExtendLow n (sext (x.setWidth n)) = some (sext (x.setWidth n)) := by
  rw [signExtendLow_pos hn]
  rcases Nat.le_total n 16 with h | h
  · rw [setWidth_sext h]
  · rw [sext_setWidth_of_ge h, sext_setWidth_of_ge h]

/-- Settles O7: each clause is a fact about `sext` of the word's low N bits. -/
theorem signExtensionLaws : Obligations.SignExtensionLaws := by
  refine ⟨fun x => rfl, fun n x y h1 h15 hy => ?formula, fun n x h16 => ?identity,
    fun n x h1 => ⟨_, signExtendLow_pos h1 x, signExtendLow_sext h1 x⟩, fun n f h1 h15 => ?field⟩
  case formula =>
    rw [signExtendLow_pos h1] at hy
    obtain rfl : sext (x.setWidth n) = y := Option.some.inj hy
    rw [sext_toNat h15, BitVec.toNat_setWidth]
    exact ⟨fun hlow => by rw [if_neg (Nat.not_le.mpr hlow), Nat.add_zero], fun hhigh => by rw [if_pos hhigh],
      sext_toInt (by omega) _⟩
  case identity => rw [signExtendLow_pos (by omega), sext_setWidth_of_ge h16]
  case field => rw [signExtendLow_pos h1, BitVec.setWidth_setWidth_of_le _ (by omega), BitVec.setWidth_eq]

end Sys2Proof.Machine

/-!
PROOF. The trap service IN (spec/44_trap.md R225, R230, R231), one equation per outcome, and O50.
-/

namespace Sys2Proof.Machine

/-- R0 holds the byte's value after it was loaded (R10, R225). -/
theorem loadInput_r0_toNat (b : Byte) (s : State) : ((loadInput b s).reg .r0).toNat = b.toNat := by
  rw [loadInput, writeResult_reg_same, zext8_toNat]

/-- COND classifies R0 after a byte was loaded (R31, R225). -/
theorem loadInput_classifies (b : Byte) (s : State) : Classifies (loadInput b s).cond ((loadInput b s).reg .r0) := by
  rw [loadInput, writeResult_reg_same, writeResult_cond]
  exact condOf_classifies _

/-- IN after its prompt, with a byte there and the echo taken (R225). -/
theorem awaitIn_echo {s : State} {b : Byte} {rest : List Byte} (hq : s.inq = b :: rest) (hw : HostTakes s 1) :
    awaitIn s =
      loadInput b (((s.setPending none).setInq rest).setOut (s.out ++ [b]) (s.writesLeft.map (fun m => m - 1))) := by
  rw [awaitIn, readThen_byte _ _ s b rest hq]
  exact writeThen_takes [b] _ _ hw

/-- IN after its prompt, with a byte there and the echo failing: the byte is gone and nothing is written (R230). -/
theorem awaitIn_echo_fails {s : State} {b : Byte} {rest : List Byte} (hq : s.inq = b :: rest)
    (hw : s.writesLeft = some 0) : awaitIn s = takeFault .io ((s.setPending none).setInq rest) := by
  rw [awaitIn, readThen_byte _ _ s b rest hq,
    writeThen_fails [b] _ ((s.setPending none).setInq rest) 0 hw Nat.one_pos, List.take_zero, List.append_nil, ← hw]
  rfl

/-- The state in which IN reads, its prompt written. -/
def prompted (s : State) : State :=
  (s.setPending none).setOut (s.out ++ Config.inPrompt) (s.writesLeft.map (fun m => m - 17))

/-- Behind the prompt the host takes seventeen bytes fewer. -/
theorem hostTakes_prompted {s : State} {n : Nat} (h : HostTakes s (17 + n)) : HostTakes (prompted s) n := by
  intro m hm
  obtain ⟨k, hk, rfl⟩ : ∃ k, s.writesLeft = some k ∧ k - 17 = m := Option.map_eq_some_iff.mp hm
  have := h k hk
  omega

/-- IN with its whole prompt taken goes on to the read (R225). -/
theorem serveIn_takes {s : State} (hw : HostTakes s 17) : serveIn s = awaitIn (prompted s) :=
  writeThen_takes Config.inPrompt awaitIn (s.setPending none) hw

/-! ### The four outcomes of IN -/

/-- A byte is there and the host takes the prompt and the echo (R225). -/
theorem serveIn_echo {s : State} {b : Byte} {rest : List Byte} (hq : s.inq = b :: rest) (hw : HostTakes s 18) :
    Wrote (Config.inPrompt ++ [b]) s (serveIn s) ∧ (serveIn s).inq = rest ∧ ((serveIn s).reg .r0).toNat = b.toNat ∧
    Classifies (serveIn s).cond ((serveIn s).reg .r0) ∧ (serveIn s).status = s.status ∧ (serveIn s).pending = none := by
  have hprompt : HostTakes s 17 := fun m hm => Nat.le_of_succ_le (hw m hm)
  rw [serveIn_takes hprompt, awaitIn_echo (s := prompted s) hq (hostTakes_prompted hw)]
  refine ⟨⟨?_, ?_⟩, rfl, loadInput_r0_toNat _ _, loadInput_classifies _ _, rfl, rfl⟩
  · exact List.append_assoc _ _ _
  · exact Option.map_map _ _ _

/-- A byte is there and the host fails at the echo (R225, R230). -/
theorem serveIn_echo_fails {s : State} {b : Byte} {rest : List Byte} (hq : s.inq = b :: rest)
    (hw : s.writesLeft = some 17) :
    WroteUntilFail Config.inPrompt 17 s (serveIn s) ∧ (serveIn s).inq = rest ∧ (serveIn s).reg .r0 = s.reg .r0 ∧
    (serveIn s).cond = s.cond ∧ (serveIn s).status = .faultIo ∧ (serveIn s).pending = none := by
  have hprompt : HostTakes s 17 := fun m hm => (Option.some.inj (hw.symm.trans hm)).le
  have hleft : (prompted s).writesLeft = some 0 := congrArg (Option.map (· - 17)) hw
  rw [serveIn_takes hprompt, awaitIn_echo_fails (s := prompted s) hq hleft]
  exact ⟨⟨rfl, hleft⟩, rfl, rfl, rfl, rfl, rfl⟩

/-- The host fails within the prompt: nothing is read (R225, R230). -/
theorem serveIn_prompt_fails {s : State} {m : Nat} (hw : s.writesLeft = some m) (hm : m < 17) :
    WroteUntilFail Config.inPrompt m s (serveIn s) ∧ (serveIn s).inq = s.inq ∧ (serveIn s).reg .r0 = s.reg .r0 ∧
    (serveIn s).cond = s.cond ∧ (serveIn s).status = .faultIo ∧ (serveIn s).pending = none := by
  rw [serveIn, writeThen_fails Config.inPrompt awaitIn (s.setPending none) m hw hm]
  exact ⟨⟨rfl, rfl⟩, rfl, rfl, rfl, rfl, rfl⟩

/-- No byte is there behind the prompt: the read fails or waits (R43, R230, R231). -/
theorem serveIn_noByte {s : State} (hq : s.inq = []) (hw : HostTakes s 17) :
    Wrote Config.inPrompt s (serveIn s) ∧ (serveIn s).inq = [] ∧ (serveIn s).reg .r0 = s.reg .r0 ∧
    (serveIn s).cond = s.cond ∧
    (s.inputFails = true → (serveIn s).status = .faultIo ∧ (serveIn s).pending = none) ∧
    (s.inputFails = false → (serveIn s).status = s.status ∧ (serveIn s).pending = some .inp) := by
  rw [serveIn_takes hw, awaitIn]
  cases hf : s.inputFails with
  | true =>
    rw [readThen_fail _ _ (prompted s) hq hf]
    exact ⟨⟨rfl, rfl⟩, hq, rfl, rfl, fun _ => ⟨rfl, rfl⟩, nofun⟩
  | false =>
    rw [readThen_wait _ _ (prompted s) hq hf]
    exact ⟨⟨rfl, rfl⟩, hq, rfl, rfl, nofun, fun _ => ⟨rfl, rfl⟩⟩

/-- Settles O50: IN is the link write, which touches R7 alone, and then the service with its four outcomes. -/
theorem inPromptsReadsAndEchoes : Obligations.InPromptsReadsAndEchoes := by
  intro s prompt hprompt
  obtain rfl : prompt = Config.inPrompt := hprompt
  have frame := serveIn_frame (link s)
  refine ⟨serveIn (link s), rfl, ?r7, frame.pc, fun q h0 h7 => ?regs, fun a => ?mem, serveIn_running _,
    frame.schedule, frame.oracleTurn, frame.inputFails, ?_⟩
  case r7 => rw [frame.reg .r7 (by decide), link_reg_r7]
  case regs => rw [frame.reg q h0, link_reg_ne s q h7]
  case mem => rw [frame.mem, link_mem]
  exact ⟨fun b rest => serveIn_echo (s := link s), fun b rest => serveIn_echo_fails (s := link s),
    fun m => serveIn_prompt_fails (s := link s), serveIn_noByte (s := link s)⟩

end Sys2Proof.Machine

/-!
PROOF. The machine's invariant (spec/10_state.md R29, R30, R35, R36; spec/44_trap.md R231): reset and the loader establish it,
every step keeps it, so every state of a run has it. O8, O9, O10, O11.
-/

namespace Sys2Proof.Machine

/-- Settles O8: each piece of the reset state is the parameter the spec names for it. -/
theorem resetState : Obligations.ResetState :=
  ⟨fun r => by cases r <;> rfl, rfl, rfl, rfl, rfl, Memory.read_nil, rfl⟩

/-- Settles O9: memory is empty, COND is ZRO, the run goes on and nothing is in progress. -/
theorem resetMeetsTheInvariant : Obligations.ResetMeetsTheInvariant :=
  ⟨Memory.wf_nil, .inr (.inl rfl), by decide, fun h => absurd rfl h⟩

/-! ### What the operations keep -/

theorem hostTurn_inv {s : State} (h : s.Inv) : (hostTurn s).Inv := by
  obtain ⟨_, _, _, e⟩ := hostTurn_eq s
  rw [e]
  exact h

/-- A bus read changes nothing the invariant speaks of but the memory, which stays canonical. -/
theorem memRead_inv {s : State} (a : Word) (h : s.Inv) : (memRead a s).2.Inv := by
  obtain ⟨hm, hc, hrun, hp⟩ := h
  refine ⟨memRead_wf a s hm, ?_⟩
  simp only [memRead_cond, memRead_running, memRead_status, memRead_pending]
  exact ⟨hc, hrun, hp⟩

theorem memWrite_inv {s : State} (a v : Word) (h : s.Inv) : (memWrite a v s).Inv := by
  obtain ⟨hm, hrest⟩ := h
  exact ⟨memWrite_wf a v s hm, hrest⟩

/-- SetCC gives COND one of its three values (R31). -/
theorem writeResult_inv {s : State} (r : Reg) (v : Word) (h : s.Inv) : (writeResult r v s).Inv := by
  obtain ⟨hm, -, hrest⟩ := h
  exact ⟨hm, by rw [writeResult_cond]; exact condOf_legal v, hrest⟩

/-- RTI and RES end the run without halting it; nothing may be in progress then. -/
theorem takeFault_inv {s : State} (k : FaultKind) (h : s.Inv) (hr : Runs s) (hp : s.pending = none) :
    (takeFault k s).Inv := by
  obtain ⟨hm, hc, -, -⟩ := h
  obtain ⟨-, hrun⟩ := hr
  cases k <;> exact ⟨hm, hc, by simp [hrun, takeFault_status], fun h' => absurd hp h'⟩

/-- A trap service keeps memory, sets COND from R0 or not at all, waits only while the run goes on, and halts in both the flag
and the status or in neither. -/
theorem service_inv {s t : State} (h : s.Inv) (hr : Runs s) (hf : ServiceFrame s t) (he : ServiceEffect s t) : t.Inv := by
  obtain ⟨hm, hc, -, -⟩ := h
  obtain ⟨hst, hrun⟩ := hr
  refine ⟨hf.mem ▸ hm, ?cond, ?run, fun hp => ?pending⟩
  case cond =>
    rcases he.cond with e | e <;> rw [e]
    · exact hc
    · exact condOf_legal _
  case run =>
    rcases he.run with ⟨e, e' | e'⟩ | ⟨e, e'⟩ <;> simp [e, e', hst, hrun]
  case pending => rw [he.pending.resolve_left hp, hst]

/-! ### Instructions, the fetch, the step -/

/-- The state after LDI's or STI's read of its pointer meets the invariant. -/
theorem inv_of_pointer {s u : State} (h : s.Inv) (hu : u = s ∨ ∃ b, u = (memRead b s).2) : u.Inv := by
  rcases hu with rfl | ⟨b, rfl⟩
  · exact h
  · exact memRead_inv b h

theorem exec_inv {i : Instr} {s t : State} (hx : exec i s = .next t) (h : s.Inv) (hr : Runs s) (hp : s.pending = none) :
    t.Inv := by
  cases exec_shape hx with
  | result dr v => exact writeResult_inv dr v h
  | load dr ea u _ _ hu => exact writeResult_inv dr _ (memRead_inv ea (inv_of_pointer h hu))
  | store ea v u _ hu => exact memWrite_inv ea v (inv_of_pointer h hu)
  | jump | stay | call | trapLink => exact h
  | illegal => exact takeFault_inv .illegalOpcode h hr hp
  | service t _ hs => exact service_inv (s := link s) h hr (service_frame hs) (service_effect hs)

theorem hostTurn_runs {s : State} (h : Runs s) : Runs (hostTurn s) := by rwa [Runs, hostTurn_status, hostTurn_running]

/-- The state in which the fetched instruction runs. -/
abbrev fetched (s : State) : State := (fetch (hostTurn s)).2

theorem fetched_inv {s : State} (h : s.Inv) : (fetched s).Inv := by
  rw [fetched, fetch_eq]
  exact memRead_inv _ (hostTurn_inv h)

theorem fetched_sameRun (s : State) : SameRun s (fetched s) := by simp [SameRun, fetched, fetch_eq]

theorem fetched_runs {s : State} (h : Runs s) : Runs (fetched s) := by
  obtain ⟨hrun, hst, -⟩ := fetched_sameRun s
  exact ⟨hst.trans h.1, hrun.trans h.2⟩

/-- Settles O10: a service in progress keeps the invariant, and so does every instruction from the fetched state. -/
theorem stepKeepsTheInvariant : Obligations.StepKeepsTheInvariant := by
  intro s t h hstep
  obtain ⟨hr, ⟨p, -, rfl⟩ | ⟨hp, rfl⟩⟩ := step_cases hstep
  · exact service_inv (hostTurn_inv h) (hostTurn_runs hr) (resume_frame p _) (resume_effect p _)
  · obtain ⟨-, -, hpend⟩ := fetched_sameRun s
    exact exec_inv (exec_eq_after _ _) (fetched_inv h) (fetched_runs hr) (hpend.trans hp)

/-! ### The loader and the runs -/

theorem loadFile_inv {f : Option (List Byte)} {s t : State} (hl : loadFile f s = .ok t) (h : s.Inv) : t.Inv := by
  obtain ⟨hm, hrest⟩ := h
  match f, hl with
  | some (b0 :: b1 :: bytes), rfl => exact ⟨loadWords_wf bytes s.mem _ hm, hrest⟩

theorem loadImages_inv {images : List (Option (List Byte))} {s t : State} (hl : loadImages images s = .ok t)
    (h : s.Inv) : t.Inv := by
  induction images generalizing s with
  | nil => cases hl; exact h
  | cons f rest ih =>
    unfold loadImages at hl
    split at hl
    · next u hu => exact ih hl (loadFile_inv hu h)
    · cases hl

/-- What holds at the start of a run holds in every state of it. -/
theorem inv_of_reaches {s t : State} (h : s.Inv) (hreach : Reaches s t) : t.Inv := by
  induction hreach with
  | here => exact h
  | step _ hstep ih => exact stepKeepsTheInvariant _ _ ih hstep

/-- Settles O11: the loader keeps reset's invariant, the host's side is no part of it, and steps keep it. -/
theorem loadedRunsKeepTheInvariant : Obligations.LoadedRunsKeepTheInvariant := by
  intro images s t inq schedule turn fails left hload hreach
  have hs : s.Inv := loadImages_inv hload resetMeetsTheInvariant
  refine inv_of_reaches ?_ hreach
  exact hs

end Sys2Proof.Machine

/-!
PROOF. How a run ends, and what a step does to the host channels (spec/10_state.md R35, R36, R41 to R44). O15, O17, O18.
-/

namespace Sys2Proof.Machine

/-! ### The end of the run -/

/-- A service that leaves the running flag alone has not ended the run normally. -/
theorem ServiceEffect.not_ended {s t : State} (he : ServiceEffect s t) (hkeep : t.running = s.running) (hr : Runs s) :
    ¬ (t.running = false ∨ t.status = .halted) := by
  obtain ⟨hst, hrun⟩ := hr
  rcases he.not_halted hkeep hrun with e | e <;> simp [hkeep, hrun, e, hst]

/-- An instruction that is no HALT leaves the run going on or ends it in a fault (R35, R36). -/
theorem exec_ended {i : Instr} {s t : State} (hx : exec i s = .next t) (hr : Runs s)
    (hend : t.running = false ∨ t.status = .halted) :
    i.canonical = .trapHalt ∧ t.running = false ∧ t.status = .halted := by
  have ⟨hst, hrun⟩ := hr
  cases exec_shape hx with
  | result | jump | stay | call | illegal | trapLink => simp [hst, hrun] at hend
  | load dr ea u _ _ hu | store ea v u _ hu => rcases hu with rfl | ⟨b, rfl⟩ <;> simp [hst, hrun] at hend
  | service t _ hs =>
    have hflag : t.running ≠ (link s).running := fun e => (service_effect hs).not_ended e hr hend
    refine ⟨?_, (service_effect hs).run.resolve_left fun ⟨e, _⟩ => hflag e⟩
    rcases hs with ⟨-, rfl⟩ | ⟨-, rfl⟩ | ⟨-, rfl⟩ | ⟨-, rfl⟩ | ⟨-, rfl⟩ | ⟨hc, -⟩
    · exact absurd (serveGetc_running _) hflag
    · exact absurd (serveOut_running _) hflag
    · exact absurd (serveString_running _ _ _) hflag
    · exact absurd (serveIn_running _) hflag
    · exact absurd (serveString_running _ _ _) hflag
    · exact hc

/-- Settles O15: a resumed service leaves the running flag alone; of the instructions only HALT ends the run. -/
theorem onlyHaltEndsTheRunNormally : Obligations.OnlyHaltEndsTheRunNormally := by
  intro s t hstep hend
  obtain ⟨hr, ⟨p, -, rfl⟩ | ⟨hp, rfl⟩⟩ := step_cases hstep
  · exact absurd hend ((resume_effect p _).not_ended (resume_running p _) (hostTurn_runs hr))
  · obtain ⟨hc, hhalted⟩ := exec_ended (exec_eq_after _ _) (fetched_runs hr) hend
    exact ⟨hp, (decode_canonical _).symm.trans hc, hhalted⟩

/-! ### The output -/

/-- An instruction only appends to the output (R44). -/
theorem exec_out {i : Instr} {s t : State} (hx : exec i s = .next t) : ∃ bytes, t.out = s.out ++ bytes := by
  cases exec_shape hx with
  | result | jump | stay | call | illegal | trapLink => exact ⟨[], by simp⟩
  | load dr ea u _ _ hu | store ea v u _ hu => exact ⟨[], by rcases hu with rfl | ⟨b, rfl⟩ <;> simp⟩
  | service t _ hs => exact (service_effect hs).out

theorem fetched_out (s : State) : (fetched s).out = s.out := by simp [fetched, fetch_eq]

/-- Settles O17: neither the host's turn nor the fetch writes; a service in progress and an instruction only append. -/
theorem outputOnlyGrows : Obligations.OutputOnlyGrows := by
  intro s t hstep
  obtain ⟨-, ⟨p, -, rfl⟩ | ⟨-, rfl⟩⟩ := step_cases hstep
  · rw [← hostTurn_out s]
    exact (resume_effect p (hostTurn s)).out
  · rw [← fetched_out s]
    exact exec_out (exec_eq_after _ (fetched s))

/-! ### The input queue -/

/-- From `s` to `t` at most the head byte of the queue was taken. -/
abbrev TakesAtMostHead (s t : State) : Prop := t.inq = s.inq ∨ ∃ b, s.inq = b :: t.inq

/-- A bus read that takes a byte is the poll, and answers READY (R62). -/
theorem memRead_takes (a : Word) (s : State) :
    (memRead a s).2.inq = s.inq ∨ ((memRead a s).1 = 0x8000#16 ∧ ∃ b, s.inq = b :: (memRead a s).2.inq) := by
  rcases memRead_cases a s with ⟨_, e⟩ | ⟨_, e⟩
  · exact .inl (by rw [e])
  · rcases keyboardPoll_cases s with ⟨b, rest, hq, hp⟩ | ⟨_, hp⟩
    · refine .inr ⟨?_, b, by rw [e, hp]; exact hq⟩
      rw [e, hp, setMem_mem, Memory.read_write_ne _ _ _ _ (by decide), Memory.read_write_same]
      rfl
    · exact .inl (by rw [e, hp]; rfl)

/-- LDI polls once at most: a pointer that came from the poll is READY, which is not KBSR's address (log entry 8). -/
theorem ldi_takes (a : Word) (s : State) : TakesAtMostHead s (memRead (memRead a s).1 (memRead a s).2).2 := by
  rcases memRead_takes a s with e | ⟨hready, hq⟩
  · rw [TakesAtMostHead, ← e]
    exact memRead_inq _ _
  · rw [hready, memRead_ne _ _ (by decide)]
    exact .inr hq

/-- A load takes at most one byte. -/
theorem load_takes {i : Instr} {s t : State} (hi : i.isLoad = true) (hx : exec i s = .next t) : TakesAtMostHead s t := by
  rcases Instr.isLoad_cases hi with ⟨dr, off, rfl⟩ | ⟨dr, off, rfl⟩ | ⟨dr, base, off, rfl⟩ <;> cases hx
  · exact memRead_inq _ s
  · exact ldi_takes _ s
  · exact memRead_inq _ s

/-- An instruction takes at most one byte (R42, R43). -/
theorem exec_takes {i : Instr} {s t : State} (hx : exec i s = .next t) : TakesAtMostHead s t := by
  cases exec_shape hx with
  | result | jump | stay | call | trapLink => exact .inl rfl
  | illegal => exact .inl (takeFault_inq _ _)
  | load _ _ _ _ hi _ => exact load_takes hi hx
  | store ea v u _ hu =>
    rcases hu with rfl | ⟨b, rfl⟩
    · exact .inl rfl
    · exact memRead_inq b s
  | service t _ hs => exact (service_effect hs).inq

/-- The fetch and the instruction together take at most one byte: a fetch that took one has fetched READY, which is RTI's
word (log entry 8). -/
theorem fetch_exec_takes (s : State) : TakesAtMostHead s (after (decode (fetch s).1) (fetch s).2) := by
  rw [fetch_eq]
  rcases memRead_takes s.pc s with e | ⟨hready, hq⟩
  · rw [TakesAtMostHead, ← e]
    exact exec_takes (s := (memRead s.pc s).2.setPc (s.pc + 1#16)) (exec_eq_after _ _)
  · have hrti : decode 0x8000#16 = .rti := by decide
    rw [hready, hrti]
    exact .inr hq

/-- Settles O18: the host's turn appends what arrives, and what follows takes at most the head. -/
theorem stepTakesAtMostOneInputByte : Obligations.StepTakesAtMostOneInputByte := by
  intro s t hstep
  refine ⟨arrivals s, fun h rest hs => ?_, fun n hs ho => ?_, fun hs ho => ?_, ?_⟩
  · rw [arrivals, hs]
  · rw [arrivals, hs, ho]
  · rw [arrivals, hs, ho]
  · rw [← hostTurn_inq]
    obtain ⟨-, ⟨p, -, rfl⟩ | ⟨-, rfl⟩⟩ := step_cases hstep
    · exact (resume_effect p (hostTurn s)).inq
    · exact fetch_exec_takes (hostTurn s)

end Sys2Proof.Machine

/-!
PROOF. Which instruction writes what of the register file, and which reads COND (spec/10_state.md R24, R28, R31, R32). O19,
O20, O21, O22, O23.
-/

namespace Sys2Proof.Machine

/-- Settles O19: SetCC writes `condOf` of the register to COND and touches nothing else. -/
theorem setCcClassifiesTheRegister : Obligations.SetCcClassifiesTheRegister :=
  fun r s => ⟨condOf_classifies (s.reg r), condOf_legal (s.reg r), fun _ => rfl, rfl, fun _ => rfl, ⟨rfl, rfl, rfl⟩,
    ⟨rfl, rfl, rfl, rfl⟩, rfl, rfl⟩

/-! ### COND, the registers and PC -/

/-- The read of a pointer writes no register, neither COND nor PC. -/
theorem pointer_frame {s u : State} (hu : u = s ∨ ∃ b, u = (memRead b s).2) :
    SameRegs s u ∧ u.cond = s.cond ∧ u.pc = s.pc := by
  rcases hu with rfl | ⟨b, rfl⟩ <;> simp [SameRegs]

theorem serveString_r0_cond (p : Pending) (render : Word → List Byte) (s : State) :
    (serveString p render s).reg .r0 = s.reg .r0 ∧ (serveString p render s).cond = s.cond :=
  writeThen_r0_cond _ _ (s.setPending none) fun t => by split <;> exact ⟨rfl, rfl⟩

/-- OUT, PUTS, PUTSP and HALT write neither R0 nor COND (R233). -/
theorem service_r0_cond {i : Instr} {s t : State}
    (h : (i.canonical = .trapGetc ∧ t = serveGetc s) ∨ (i.canonical = .trapOut ∧ t = serveOut s) ∨
      (i.canonical = .trapPuts ∧ t = servePuts s) ∨ (i.canonical = .trapIn ∧ t = serveIn s) ∨
      (i.canonical = .trapPutsp ∧ t = servePutsp s) ∨ (i.canonical = .trapHalt ∧ t = serveHalt s)) :
    i.canonical ∈ [Instr.trapGetc, .trapIn] ∨ (t.reg .r0 = s.reg .r0 ∧ t.cond = s.cond) := by
  rcases h with ⟨e, -⟩ | ⟨-, rfl⟩ | ⟨-, rfl⟩ | ⟨e, -⟩ | ⟨-, rfl⟩ | ⟨-, rfl⟩
  · exact .inl (by simp [e])
  · exact .inr (writeThen_r0_cond _ _ (s.setPending none) fun _ => ⟨rfl, rfl⟩)
  · exact .inr (serveString_r0_cond _ _ s)
  · exact .inl (by simp [e])
  · exact .inr (serveString_r0_cond _ _ s)
  · exact .inr (writeThen_r0_cond _ _ (s.setPending none) fun _ => ⟨rfl, rfl⟩)

/-- A result and a load classify their DR, GETC and IN classify R0, and nothing else writes COND. -/
theorem exec_cond {i : Instr} {s t : State} (hx : exec i s = .next t) :
    t.cond = s.cond ∨ ∃ r : Reg, Classifies t.cond (t.reg r) ∧
      (i.dest = some r ∨ (r = .r0 ∧ i.canonical ∈ [Instr.trapGetc, .trapIn])) := by
  cases exec_shape hx with
  | jump | stay | call | trapLink => exact .inl rfl
  | illegal => exact .inl (takeFault_cond _ _)
  | store ea v u _ hu =>
    obtain ⟨-, hcond, -⟩ := pointer_frame hu
    exact .inl hcond
  | result dr v hd =>
    refine .inr ⟨dr, ?_, .inl hd⟩
    rw [writeResult_cond, writeResult_reg_same]
    exact condOf_classifies v
  | load dr ea u hd =>
    refine .inr ⟨dr, ?_, .inl hd⟩
    rw [loadFrom_cond, loadFrom_reg_same]
    exact condOf_classifies _
  | service t _ hs =>
    rcases service_r0_cond hs with hmem | ⟨-, hcond⟩
    · rcases (service_effect hs).cond with hcond | hcond
      · exact .inl hcond
      · exact .inr ⟨.r0, hcond ▸ condOf_classifies _, .inr ⟨rfl, hmem⟩⟩
    · exact .inl hcond

/-- Settles O20: `exec_cond`, with the instructions that have a DR written out. -/
theorem onlyTheListedInstructionsWriteCond : Obligations.OnlyTheListedInstructionsWriteCond := by
  intro i s t hx
  refine (exec_cond hx).imp_right fun ⟨r, hclass, hi⟩ => ⟨r, hclass, ?_⟩
  simpa only [or_assoc] using hi.imp_left Instr.dest_cases

/-- A register that changes is the DR, the link register of a call or a TRAP, or R0 after GETC or IN. -/
theorem exec_reg {i : Instr} {s t : State} {q : Reg} (hx : exec i s = .next t) (hne : t.reg q ≠ s.reg q) :
    i.dest = some q ∨ (q = .r7 ∧ (i.isCall = true ∨ i.row = ⟨0xF000#16, 0xF000#16⟩)) ∨
      (q = .r0 ∧ i.canonical ∈ [Instr.trapGetc, .trapIn]) := by
  cases exec_shape hx with
  | jump | stay => exact absurd rfl hne
  | illegal => exact absurd (takeFault_reg _ _ _) hne
  | store ea v u _ hu =>
    obtain ⟨hregs, -, -⟩ := pointer_frame hu
    exact absurd (hregs q) hne
  | result dr v hd =>
    obtain rfl : q = dr := by_contra fun h => hne (writeResult_reg_ne dr q v s h)
    exact .inl hd
  | load dr ea u hd _ hu =>
    obtain ⟨hregs, -, -⟩ := pointer_frame hu
    obtain rfl : q = dr := by_contra fun h => hne ((loadFrom_reg_ne dr q ea u h).trans (hregs q))
    exact .inl hd
  | call v hc => exact .inr (.inl ⟨by_contra fun h => hne (link_reg_ne s q h), .inl hc⟩)
  | trapLink hrow => exact .inr (.inl ⟨by_contra fun h => hne (link_reg_ne s q h), .inr hrow⟩)
  | service t hrow hs =>
    by_cases h7 : q = .r7
    · exact .inr (.inl ⟨h7, .inr hrow⟩)
    · rw [← link_reg_ne s q h7] at hne
      obtain rfl : q = .r0 := by_contra fun h => hne ((service_frame hs).reg q h)
      exact .inr (.inr ⟨rfl, (service_r0_cond hs).resolve_right fun h => hne h.1⟩)

/-- Settles O22: `exec_reg`, with the instructions that have a DR and the calls written out. -/
theorem registerWriters : Obligations.RegisterWriters := by
  intro i s t q hx hne
  simpa only [or_assoc] using
    (exec_reg hx hne).imp Instr.dest_cases (Or.imp_left (And.imp_right (Or.imp_left Instr.isCall_cases)))

/-- Settles O23: of the shapes only a jump and a call write PC. -/
theorem pcWriters : Obligations.PcWriters := by
  intro i s t hx hne
  cases exec_shape hx with
  | result | stay | trapLink => exact absurd rfl hne
  | illegal => exact absurd (takeFault_pc _ _) hne
  | load dr ea u _ _ hu =>
    obtain ⟨-, -, hpc⟩ := pointer_frame hu
    exact absurd ((loadFrom_pc dr ea u).trans hpc) hne
  | store ea v u _ hu =>
    obtain ⟨-, -, hpc⟩ := pointer_frame hu
    exact absurd hpc hne
  | jump v hj => simpa only [or_assoc] using Or.inl (Instr.isJump_cases hj)
  | call v hc => exact .inr (.inr (.inr (Instr.isCall_cases hc)))
  | service t _ hs => exact absurd (service_frame hs).pc hne

end Sys2Proof.Machine

/-!
PROOF. Nothing but BR reads COND (spec/10_state.md R32). O21.
-/

namespace Sys2Proof.Machine

/-- A transition that does not read COND: from a state whose COND is replaced it ends in the same state, having written COND,
or in the same state but for COND, having left COND alone. -/
def CondBlind (f : State → State) : Prop :=
  ∀ (s : State) (c : Word), f (s.setCond c) = f s ∨ (f (s.setCond c) = (f s).setCond c ∧ (f s).cond = s.cond)

/-! ### Loads, and what TRAP is made of -/

theorem keyboardPoll_setCond (s : State) (c : Word) : keyboardPoll (s.setCond c) = (keyboardPoll s).setCond c := by
  rcases keyboardPoll_cases s with ⟨b, rest, hq, e⟩ | ⟨hq, e⟩ <;> rw [e]
  · exact keyboardPoll_byte (s.setCond c) b rest hq
  · exact keyboardPoll_none (s.setCond c) hq

theorem memRead_setCond (a : Word) (s : State) (c : Word) :
    memRead a (s.setCond c) = ((memRead a s).1, (memRead a s).2.setCond c) := by
  rcases memRead_cases a s with ⟨ha, e⟩ | ⟨rfl, e⟩ <;> rw [e]
  · exact memRead_ne a (s.setCond c) ha
  · rw [memRead, if_pos rfl, keyboardPoll_setCond]
    rfl

theorem readPointer_setCond (off : BitVec 9) (s : State) (c : Word) :
    readPointer off (s.setCond c) = ((readPointer off s).1, (readPointer off s).2.setCond c) := memRead_setCond _ s c

/-- A load writes COND, so what it held before does not matter. -/
theorem loadFrom_setCond (dr : Reg) (ea : Word) (s : State) (c : Word) :
    loadFrom dr ea (s.setCond c) = loadFrom dr ea s := by
  rw [loadFrom_eq, memRead_setCond]
  rfl

theorem loadInput_condBlind (b : Byte) : CondBlind (loadInput b) := fun _ _ => .inl rfl

theorem writeThen_condBlind (bs : List Byte) {k : State → State} (hk : CondBlind k) : CondBlind (writeThen bs k) := by
  intro s c
  rcases writeThen_cases bs k s with ⟨ht, e⟩ | ⟨m, hw, hm, e⟩ <;> rw [e]
  · rw [writeThen_takes bs k (s.setCond c) ht]
    exact hk (s.setOut _ _) c
  · rw [writeThen_fails bs k (s.setCond c) m hw hm]
    exact .inr ⟨rfl, rfl⟩

theorem readThen_condBlind (w : Pending) {k : Byte → State → State} (hk : ∀ b, CondBlind (k b)) :
    CondBlind (readThen w k) := by
  intro s c
  rcases readThen_cases w k s with ⟨b, rest, hq, e⟩ | ⟨hq, hf, e⟩ | ⟨hq, hf, e⟩ <;> rw [e]
  · rw [readThen_byte w k (s.setCond c) b rest hq]
    exact hk b ((s.setPending none).setInq rest) c
  · rw [readThen_fail w k (s.setCond c) hq hf]
    exact .inr ⟨rfl, rfl⟩
  · rw [readThen_wait w k (s.setCond c) hq hf]
    exact .inr ⟨rfl, rfl⟩

/-! ### The services -/

theorem serveGetc_condBlind : CondBlind serveGetc := readThen_condBlind _ loadInput_condBlind

theorem awaitIn_condBlind : CondBlind awaitIn :=
  readThen_condBlind _ fun b => writeThen_condBlind _ (loadInput_condBlind b)

theorem serveIn_condBlind : CondBlind serveIn :=
  fun s c => writeThen_condBlind _ awaitIn_condBlind (s.setPending none) c

theorem serveOut_condBlind : CondBlind serveOut :=
  fun s c => writeThen_condBlind _ (k := id) (fun _ _ => .inr ⟨rfl, rfl⟩) (s.setPending none) c

theorem serveString_condBlind (p : Pending) (render : Word → List Byte) : CondBlind (serveString p render) :=
  fun s c => writeThen_condBlind _ (fun t c => by split <;> exact .inr ⟨rfl, rfl⟩) (s.setPending none) c

theorem serveHalt_condBlind : CondBlind serveHalt :=
  fun s c => writeThen_condBlind _ (k := State.halt) (fun _ _ => .inr ⟨rfl, rfl⟩) (s.setPending none) c

theorem trapService_condBlind (v : BitVec 8) : CondBlind (trapService v) := by
  intro s c
  unfold trapService
  repeat' split
  · exact serveGetc_condBlind s c
  · exact serveOut_condBlind s c
  · exact serveString_condBlind _ _ s c
  · exact serveIn_condBlind s c
  · exact serveString_condBlind _ _ s c
  · exact serveHalt_condBlind s c
  · exact .inr ⟨rfl, rfl⟩

/-- The link write, which neither reads nor writes COND, before a service. -/
theorem CondBlind.afterLink {f : State → State} (hf : CondBlind f) : CondBlind (fun s => f (link s)) :=
  fun s c => hf (link s) c

/-! ### Every instruction but BR -/

theorem after_ldi (dr : Reg) (off : BitVec 9) (s : State) :
    after (.ldi dr off) s = loadFrom dr (readPointer off s).1 (readPointer off s).2 := rfl

theorem after_sti (sr : Reg) (off : BitVec 9) (s : State) :
    after (.sti sr off) s = memWrite (readPointer off s).1 ((readPointer off s).2.reg sr) (readPointer off s).2 := rfl

theorem after_condBlind (i : Instr) (hbr : ∀ nzp off, i ≠ .br nzp off) : CondBlind (after i) := by
  cases i with
  | br nzp off => exact absurd rfl (hbr nzp off)
  | addReg | addImm | andReg | andImm | not | lea => exact fun _ _ => .inl rfl
  | ld | ldr => exact fun s c => .inl (loadFrom_setCond _ _ s c)
  | ldi dr off =>
    intro s c
    rw [after_ldi, after_ldi, readPointer_setCond]
    exact .inl (loadFrom_setCond dr _ _ c)
  | st | str => exact fun _ _ => .inr ⟨rfl, rfl⟩
  | sti sr off =>
    intro s c
    rw [after_sti, after_sti, readPointer_setCond]
    exact .inr ⟨rfl, memRead_cond _ s⟩
  | jmp | ret | nop | jsr | jsrr | rti | res | trapUnknown => exact fun _ _ => .inr ⟨rfl, rfl⟩
  | trap v => exact (trapService_condBlind v).afterLink
  | trapGetc => exact serveGetc_condBlind.afterLink
  | trapOut => exact serveOut_condBlind.afterLink
  | trapPuts => exact (serveString_condBlind _ _).afterLink
  | trapIn => exact serveIn_condBlind.afterLink
  | trapPutsp => exact (serveString_condBlind _ _).afterLink
  | trapHalt => exact serveHalt_condBlind.afterLink

/-- Settles O21: every instruction but BR is blind to COND. -/
theorem onlyBranchReadsCond : Obligations.OnlyBranchReadsCond := by
  intro i s c hbr
  refine ⟨after i s, after i (s.setCond c), exec_eq_after i s, exec_eq_after i _, ?_⟩
  rcases after_condBlind i hbr s c with e | ⟨e, hcond⟩ <;> rw [e]
  · exact ⟨rfl, .inl rfl⟩
  · exact ⟨rfl, .inr ⟨rfl, hcond⟩⟩

end Sys2Proof.Machine

/-!
PROOF. The bus, and what instructions do to memory (spec/20_memory.md R61 to R64, R73, R80, R82). O24, O25, O26, O27, O28.
-/

namespace Sys2Proof.Machine

/-! ### The bus -/

/-- The bus read at KBSR with a byte pending answers READY (R62). -/
theorem memRead_kbsr_byte {s : State} {b : Byte} {rest : List Byte} (hq : s.inq = b :: rest) :
    memRead Config.kbsr s = (Config.kbsrReady,
      (s.setInq rest).setMem ((s.mem.write Config.kbsr Config.kbsrReady).write Config.kbdr (zext8 b))) := by
  have hne : Config.kbsr ≠ Config.kbdr := by decide
  rw [memRead, if_pos rfl, keyboardPoll_byte s b rest hq, setMem_mem, Memory.read_write_ne _ _ _ _ hne,
    Memory.read_write_same]

/-- The bus read at KBSR with no byte pending answers zero (R63). -/
theorem memRead_kbsr_none {s : State} (hq : s.inq = []) :
    memRead Config.kbsr s = (0x0000#16, s.setMem (s.mem.write Config.kbsr 0x0000#16)) := by
  rw [memRead, if_pos rfl, keyboardPoll_none s hq, setMem_mem, Memory.read_write_same]

/-- Settles O25: at KBSR the poll has its two outcomes, everywhere else the read leaves the state as it is. -/
theorem busReadPolls : Obligations.BusReadPolls := by
  intro a s
  refine ⟨fun ha => ?pure, fun ha b rest hq => ?byte, fun ha hq => ?none, by simp [SameRegs, SameRun, SameOutput]⟩
  case pure =>
    rw [memRead_ne a s ha]
    exact ⟨rfl, fun _ => rfl, rfl⟩
  case byte =>
    obtain rfl : a = Config.kbsr := ha
    rw [memRead_kbsr_byte hq]
    refine ⟨rfl, rfl, ?_, Memory.read_write_same _ _ _, fun c hsr hdr => ?_⟩
    · exact (Memory.read_write_ne _ _ _ _ (by decide)).trans (Memory.read_write_same _ _ _)
    · exact (Memory.read_write_ne _ _ _ _ hdr).trans (Memory.read_write_ne _ _ _ _ hsr)
  case none =>
    obtain rfl : a = Config.kbsr := ha
    rw [memRead_kbsr_none hq]
    exact ⟨rfl, hq, Memory.read_write_same s.mem Config.kbsr 0x0000#16,
      fun c hc => Memory.read_write_ne s.mem Config.kbsr c 0x0000#16 hc⟩

/-- Settles O26: a bus write is one write of a memory cell, at KBSR and KBDR as everywhere (R64). -/
theorem busWriteStores : Obligations.BusWriteStores :=
  fun a v s => ⟨Memory.read_write_same s.mem a v, fun _ hb => Memory.read_write_ne s.mem a _ v hb, fun _ => rfl, rfl, rfl,
    ⟨rfl, rfl, rfl⟩, ⟨rfl, rfl, rfl, rfl⟩, rfl, rfl⟩

/-- Settles O27: away from KBSR the read is pure, and at KBSR the poll overwrites what was written. -/
theorem writeThenRead : Obligations.WriteThenRead := by
  refine ⟨fun a v s ha => ?_, fun v s => ?_⟩
  · rw [memRead_ne a _ ha]
    exact Memory.read_write_same s.mem a v
  · cases hq : s.inq with
    | cons b rest => exact .inl (congrArg Prod.fst (memRead_kbsr_byte (s := memWrite _ v s) hq))
    | nil => exact .inr (congrArg Prod.fst (memRead_kbsr_none (s := memWrite _ v s) hq))

/-! ### Which instructions change memory -/

/-- The read of a pointer changes no cell but KBSR and KBDR (R73). -/
theorem pointer_mem {s u : State} (hu : u = s ∨ ∃ b, u = (memRead b s).2) {a : Word} (hsr : a ≠ Config.kbsr)
    (hdr : a ≠ Config.kbdr) : u.mem.read a = s.mem.read a := by
  rcases hu with rfl | ⟨b, rfl⟩
  · rfl
  · exact memRead_mem b s a hsr hdr

/-- A cell that changes is a store's, or one of the two a load's bus read can change (R73, R180, R200, R232). -/
theorem exec_mem {i : Instr} {s t : State} {a : Word} (hx : exec i s = .next t) (hne : t.mem.read a ≠ s.mem.read a) :
    i.isStore = true ∨ ((a = Config.kbsr ∨ a = Config.kbdr) ∧ i.isLoad = true) := by
  cases exec_shape hx with
  | result | jump | stay | call | trapLink => exact absurd rfl hne
  | illegal => exact absurd (by rw [takeFault_mem]) hne
  | service t _ hs => exact absurd (by rw [(service_frame hs).mem, link_mem]) hne
  | store _ _ _ hi => exact .inl hi
  | load dr ea u _ hi hu =>
    refine .inr ⟨?_, hi⟩
    by_contra hkb
    obtain ⟨hsr, hdr⟩ := not_or.mp hkb
    refine hne ?_
    rw [loadFrom_mem, memRead_mem ea u a hsr hdr, pointer_mem hu hsr hdr]

/-- Settles O24: `exec_mem`, with the stores and the loads written out. -/
theorem memoryWriters : Obligations.MemoryWriters := by
  intro i s t a hx hne
  rcases exec_mem hx hne with hstore | ⟨ha, hload⟩
  · exact (Instr.isStore_cases hstore).imp_right (Or.imp_right .inl)
  · exact .inr (.inr (.inr ⟨ha, Instr.isLoad_cases hload⟩))

/-! ### A store and the next fetch -/

/-- Where the fetch does not poll, the step runs the word that memory holds at PC (R26, R100). -/
theorem step_runs_mem {s : State} (hr : Runs s) (hp : s.pending = none) (hpc : s.pc ≠ Config.kbsr) :
    step s = exec (decode (s.mem.read s.pc)) ((hostTurn s).setPc (s.pc + 1#16)) := by
  rw [step_fetch hr hp, fetch_eq, hostTurn_pc, memRead_ne _ _ hpc, hostTurn_mem]

/-- After a bus write to the address PC holds, the step runs the word written (R80). -/
theorem step_memWrite_pc {s : State} (v : Word) (hr : Runs s) (hp : s.pending = none) (hpc : s.pc ≠ Config.kbsr) :
    step (memWrite s.pc v s) = exec (decode v) ((hostTurn (memWrite s.pc v s)).setPc (s.pc + 1#16)) := by
  rw [step_runs_mem (s := memWrite s.pc v s) hr hp hpc, memWrite_pc, memWrite_read, if_pos rfl]

/-- The PC-relative address of offset 0 is PC (R117). -/
theorem pcRelative_zero (n : Nat) (s : State) : pcRelative (0#n) s = s.pc := by
  simp [pcRelative, sext, BitVec.signExtend_eq_setWidth_of_msb_false]

/-- Settles O28: ST with offset 0 is a bus write to the address PC holds. -/
theorem storeIsSeenByTheNextFetch : Obligations.StoreIsSeenByTheNextFetch := by
  refine ⟨fun v s => step_memWrite_pc v, fun sr s t hx hr hp hpc => ?_⟩
  obtain rfl : memWrite (pcRelative 0#9 s) (s.reg sr) s = t := Host.Outcome.next.inj hx
  rw [pcRelative_zero] at hr hp ⊢
  exact step_memWrite_pc (s.reg sr) hr hp hpc

end Sys2Proof.Machine

/-!
PROOF. Decoding after encoding (spec/30_encoding.md R105 to R116, R125): the fields of the word each format lays out. O1.
-/

namespace Sys2Proof

open Laws

/-! ### Fields of the encoder's formats -/

section Formats
variable (op : BitVec 4) (dr sr1 sr2 : Reg)

@[simp] theorem field11to9_encodeOp3r : field11to9 (encodeOp3r op dr sr1 sr2) = regToBits dr := op3r_field11to9 _ _ _ _
@[simp] theorem field8to6_encodeOp3r : field8to6 (encodeOp3r op dr sr1 sr2) = regToBits sr1 := op3r_field8to6 _ _ _ _
@[simp] theorem field2to0_encodeOp3r : field2to0 (encodeOp3r op dr sr1 sr2) = regToBits sr2 := op3r_field2to0 _ _ _ _

@[simp] theorem field11to9_encodeOp3i (imm : BitVec 5) : field11to9 (encodeOp3i op dr sr1 imm) = regToBits dr :=
  op3i_field11to9 _ _ _ _
@[simp] theorem field8to6_encodeOp3i (imm : BitVec 5) : field8to6 (encodeOp3i op dr sr1 imm) = regToBits sr1 :=
  op3i_field8to6 _ _ _ _
@[simp] theorem imm5Bits_encodeOp3i (imm : BitVec 5) : imm5Bits (encodeOp3i op dr sr1 imm) = imm :=
  op3i_imm5Bits _ _ _ _

@[simp] theorem field11to9_encodePc9 (off : BitVec 9) : field11to9 (encodePc9 op dr off) = regToBits dr :=
  pc9_field11to9 _ _ _
@[simp] theorem pcOffset9Bits_encodePc9 (off : BitVec 9) : pcOffset9Bits (encodePc9 op dr off) = off :=
  pc9_pcOffset9Bits _ _ _

@[simp] theorem field11to9_encodeBase6 (off : BitVec 6) : field11to9 (encodeBase6 op dr sr1 off) = regToBits dr :=
  base6_field11to9 _ _ _ _
@[simp] theorem field8to6_encodeBase6 (off : BitVec 6) : field8to6 (encodeBase6 op dr sr1 off) = regToBits sr1 :=
  base6_field8to6 _ _ _ _
@[simp] theorem offset6Bits_encodeBase6 (off : BitVec 6) : offset6Bits (encodeBase6 op dr sr1 off) = off :=
  base6_offset6Bits _ _ _ _

end Formats

@[simp] theorem field11to9_encodeBr (nzp : BitVec 3) (off : BitVec 9) : field11to9 (encodeBr nzp off) = nzp :=
  pc9_field11to9 _ _ _
@[simp] theorem pcOffset9Bits_encodeBr (nzp : BitVec 3) (off : BitVec 9) : pcOffset9Bits (encodeBr nzp off) = off :=
  pc9_pcOffset9Bits _ _ _
@[simp] theorem field8to6_encodeJmp (base : Reg) : field8to6 (encodeJmp base) = regToBits base := base6_field8to6 _ _ _ _
@[simp] theorem trapvect8Bits_encodeTrap (v : BitVec 8) : trapvect8Bits (encodeTrap v) = v := trap_trapvect8Bits _ _

/-! ### The decoder on the encoder's words -/

theorem decode_encode_br (nzp : BitVec 3) (off : BitVec 9) :
    decode (encode (.br nzp off)) = Instr.canonical (.br nzp off) := by
  rw [decode_br _ (EncodeInRow.br nzp off)]; simp [encode]

theorem decode_encode_jmp (base : Reg) : decode (encode (.jmp base)) = Instr.canonical (.jmp base) := by
  rw [decode_jmp _ (EncodeInRow.jmp base)]; simp [encode]

theorem decode_encode_trap (v : BitVec 8) : decode (encode (.trap v)) = Instr.canonical (.trap v) := by
  rw [decode_trap _ (EncodeInRow.trap v)]; simp [encode]

/-- The decoder answers an instruction's word with its most special name: RET, NOP and the services have a word of
their parent (R125). -/
theorem decode_encode (i : Instr) : decode (encode i) = i.canonical := by
  cases i with
  | br nzp off => exact decode_encode_br nzp off
  | nop off => exact decode_encode_br 0#3 off
  | addReg dr sr1 sr2 => rw [decode_addReg _ (EncodeInRow.addReg dr sr1 sr2)]; simp [encode, Instr.canonical]
  | addImm dr sr1 imm => rw [decode_addImm _ (EncodeInRow.addImm dr sr1 imm)]; simp [encode, Instr.canonical]
  | andReg dr sr1 sr2 => rw [decode_andReg _ (EncodeInRow.andReg dr sr1 sr2)]; simp [encode, Instr.canonical]
  | andImm dr sr1 imm => rw [decode_andImm _ (EncodeInRow.andImm dr sr1 imm)]; simp [encode, Instr.canonical]
  | not dr sr1 =>
    have word : encode (.not dr sr1) = encodeBase6 0b1001#4 dr sr1 0b111111#6 := rfl
    rw [decode_not _ (EncodeInRow.not dr sr1)]; simp [word, Instr.canonical]
  | ld dr off => rw [decode_ld _ (EncodeInRow.ld dr off)]; simp [encode, Instr.canonical]
  | ldi dr off => rw [decode_ldi _ (EncodeInRow.ldi dr off)]; simp [encode, Instr.canonical]
  | lea dr off => rw [decode_lea _ (EncodeInRow.lea dr off)]; simp [encode, Instr.canonical]
  | st sr off => rw [decode_st _ (EncodeInRow.st sr off)]; simp [encode, Instr.canonical]
  | sti sr off => rw [decode_sti _ (EncodeInRow.sti sr off)]; simp [encode, Instr.canonical]
  | ldr dr base off => rw [decode_ldr _ (EncodeInRow.ldr dr base off)]; simp [encode, Instr.canonical]
  | str sr base off => rw [decode_str _ (EncodeInRow.str sr base off)]; simp [encode, Instr.canonical]
  | jsr off => rw [decode_jsr _ (EncodeInRow.jsr off), encode, jsr_pcOffset11Bits]; rfl
  | jsrr base =>
    rw [decode_jsrr _ (EncodeInRow.jsrr base), encode, jsrr_field8to6, regOfBits_regToBits]; rfl
  | jmp base => exact decode_encode_jmp base
  | ret => exact decode_encode_jmp .r7
  | rti => exact decode_rti _ EncodeInRow.rti
  | res => exact decode_res _ EncodeInRow.res
  | trap v => exact decode_encode_trap v
  | trapUnknown v => exact decode_encode_trap v
  | trapGetc => exact decode_encode_trap Config.vecGetc
  | trapOut => exact decode_encode_trap Config.vecOut
  | trapPuts => exact decode_encode_trap Config.vecPuts
  | trapIn => exact decode_encode_trap Config.vecIn
  | trapPutsp => exact decode_encode_trap Config.vecPutsp
  | trapHalt => exact decode_encode_trap Config.vecHalt

/-- Settles O1: the decoder answers the most special name, which a well-formed term has already. -/
theorem decodeOfEncode : Obligations.DecodeOfEncode :=
  fun i hwf => (decode_encode i).trans (canonical_of_wf hwf)

end Sys2Proof

/-!
PROOF. The words of each primary row (spec/30_encoding.md R120, R125, R126): what `decodePrimary` reads from a word, said
row by row, and what follows for the encoder, the ignored bits and the partition into rows. O2, O3, O4, O5.
-/

namespace Sys2Proof

open Machine (xor_and_of_disjoint extract_xor_of_disjoint)
open Laws

/-! ### The row of a word, and the instruction the row reads from it -/

/-- The word is in the row of R126 with the instruction's name, and the instruction has the word's fields. -/
inductive ReadsAs (w : Word) : Instr → Prop where
  | br : w &&& 0xF000#16 = 0x0000#16 → ReadsAs w (.br (field11to9 w) (pcOffset9Bits w))
  | addReg : w &&& 0xF020#16 = 0x1000#16 →
      ReadsAs w (.addReg (regOfBits (field11to9 w)) (regOfBits (field8to6 w)) (regOfBits (field2to0 w)))
  | addImm : w &&& 0xF020#16 = 0x1020#16 →
      ReadsAs w (.addImm (regOfBits (field11to9 w)) (regOfBits (field8to6 w)) (imm5Bits w))
  | ld : w &&& 0xF000#16 = 0x2000#16 → ReadsAs w (.ld (regOfBits (field11to9 w)) (pcOffset9Bits w))
  | st : w &&& 0xF000#16 = 0x3000#16 → ReadsAs w (.st (regOfBits (field11to9 w)) (pcOffset9Bits w))
  | jsrr : w &&& 0xF800#16 = 0x4000#16 → ReadsAs w (.jsrr (regOfBits (field8to6 w)))
  | jsr : w &&& 0xF800#16 = 0x4800#16 → ReadsAs w (.jsr (pcOffset11Bits w))
  | andReg : w &&& 0xF020#16 = 0x5000#16 →
      ReadsAs w (.andReg (regOfBits (field11to9 w)) (regOfBits (field8to6 w)) (regOfBits (field2to0 w)))
  | andImm : w &&& 0xF020#16 = 0x5020#16 →
      ReadsAs w (.andImm (regOfBits (field11to9 w)) (regOfBits (field8to6 w)) (imm5Bits w))
  | ldr : w &&& 0xF000#16 = 0x6000#16 →
      ReadsAs w (.ldr (regOfBits (field11to9 w)) (regOfBits (field8to6 w)) (offset6Bits w))
  | str : w &&& 0xF000#16 = 0x7000#16 →
      ReadsAs w (.str (regOfBits (field11to9 w)) (regOfBits (field8to6 w)) (offset6Bits w))
  | rti : w &&& 0xF000#16 = 0x8000#16 → ReadsAs w .rti
  | not : w &&& 0xF000#16 = 0x9000#16 → ReadsAs w (.not (regOfBits (field11to9 w)) (regOfBits (field8to6 w)))
  | ldi : w &&& 0xF000#16 = 0xA000#16 → ReadsAs w (.ldi (regOfBits (field11to9 w)) (pcOffset9Bits w))
  | sti : w &&& 0xF000#16 = 0xB000#16 → ReadsAs w (.sti (regOfBits (field11to9 w)) (pcOffset9Bits w))
  | jmp : w &&& 0xF000#16 = 0xC000#16 → ReadsAs w (.jmp (regOfBits (field8to6 w)))
  | res : w &&& 0xF000#16 = 0xD000#16 → ReadsAs w .res
  | lea : w &&& 0xF000#16 = 0xE000#16 → ReadsAs w (.lea (regOfBits (field11to9 w)) (pcOffset9Bits w))
  | trap : w &&& 0xF000#16 = 0xF000#16 → ReadsAs w (.trap (trapvect8Bits w))

/-- Every word is in a row, and the decoder reads that row's instruction (R121). -/
theorem readsAs_decodePrimary (w : Word) : ReadsAs w (decodePrimary w) := by
  have hrow : w &&& (decodePrimary w).row.mask = (decodePrimary w).row.pattern := by
    simpa [EncRow.has] using decodePrimary_row_has w
  revert hrow
  unfold decodePrimary
  split
  case h_1 => exact .br
  case h_2 => split; exacts [.addImm, .addReg]
  case h_3 => exact .ld
  case h_4 => exact .st
  case h_5 => split; exacts [.jsr, .jsrr]
  case h_6 => split; exacts [.andImm, .andReg]
  case h_7 => exact .ldr
  case h_8 => exact .str
  case h_9 => exact .rti
  case h_10 => exact .not
  case h_11 => exact .ldi
  case h_12 => exact .sti
  case h_13 => exact .jmp
  case h_14 => exact .res
  case h_15 => exact .lea
  case h_16 => exact .trap

/-- A word reads as one instruction only. -/
theorem ReadsAs.decodePrimary_eq {w : Word} {i : Instr} (h : ReadsAs w i) : decodePrimary w = i := by
  cases h with
  | br h => exact decodePrimary_br w h
  | addReg h => exact decodePrimary_addReg w h
  | addImm h => exact decodePrimary_addImm w h
  | ld h => exact decodePrimary_ld w h
  | st h => exact decodePrimary_st w h
  | jsrr h => exact decodePrimary_jsrr w h
  | jsr h => exact decodePrimary_jsr w h
  | andReg h => exact decodePrimary_andReg w h
  | andImm h => exact decodePrimary_andImm w h
  | ldr h => exact decodePrimary_ldr w h
  | str h => exact decodePrimary_str w h
  | rti h => exact decodePrimary_rti w h
  | not h => exact decodePrimary_not w h
  | ldi h => exact decodePrimary_ldi w h
  | sti h => exact decodePrimary_sti w h
  | jmp h => exact decodePrimary_jmp w h
  | res h => exact decodePrimary_res w h
  | lea h => exact decodePrimary_lea w h
  | trap h => exact decodePrimary_trap w h

/-! ### The ignored bits (R120) -/

section Ignored
variable (w m g : Word)

theorem field11to9_xor (h : g.extractLsb' 9 3 = 0#3) : field11to9 (w ^^^ (m &&& g)) = field11to9 w :=
  extract_xor_of_disjoint w m g 9 3 h

theorem field8to6_xor (h : g.extractLsb' 6 3 = 0#3) : field8to6 (w ^^^ (m &&& g)) = field8to6 w :=
  extract_xor_of_disjoint w m g 6 3 h

theorem field2to0_xor (h : g.extractLsb' 0 3 = 0#3) : field2to0 (w ^^^ (m &&& g)) = field2to0 w :=
  extract_xor_of_disjoint w m g 0 3 h

theorem trapvect8Bits_xor (h : g.extractLsb' 0 8 = 0#8) : trapvect8Bits (w ^^^ (m &&& g)) = trapvect8Bits w :=
  extract_xor_of_disjoint w m g 0 8 h

end Ignored

/-- A word with ignored bits changed reads as the same instruction: they are neither in the row's mask nor in a field. -/
theorem ReadsAs.xor_ignored {w : Word} {i : Instr} (hi : ReadsAs w i) (m : Word) :
    ReadsAs (w ^^^ (m &&& i.ignoredBits)) i := by
  have inRow {k p : Word} (g : Word) (hg : g &&& k = 0#16) (h : w &&& k = p) : (w ^^^ (m &&& g)) &&& k = p :=
    (xor_and_of_disjoint w m g k hg).trans h
  have unchanged (h : i.ignoredBits = 0#16) : ReadsAs (w ^^^ (m &&& i.ignoredBits)) i := by simpa [h] using hi
  cases hi with
  | br | addImm | ld | st | jsr | andImm | ldr | str | ldi | sti | lea => exact unchanged rfl
  | addReg h =>
    have := ReadsAs.addReg (inRow 0x0018#16 (by decide) h)
    rwa [field11to9_xor _ _ _ (by decide), field8to6_xor _ _ _ (by decide), field2to0_xor _ _ _ (by decide)] at this
  | andReg h =>
    have := ReadsAs.andReg (inRow 0x0018#16 (by decide) h)
    rwa [field11to9_xor _ _ _ (by decide), field8to6_xor _ _ _ (by decide), field2to0_xor _ _ _ (by decide)] at this
  | not h =>
    have := ReadsAs.not (inRow 0x003F#16 (by decide) h)
    rwa [field11to9_xor _ _ _ (by decide), field8to6_xor _ _ _ (by decide)] at this
  | jsrr h =>
    have := ReadsAs.jsrr (inRow 0x063F#16 (by decide) h)
    rwa [field8to6_xor _ _ _ (by decide)] at this
  | jmp h =>
    have := ReadsAs.jmp (inRow 0x0E3F#16 (by decide) h)
    rwa [field8to6_xor _ _ _ (by decide)] at this
  | trap h =>
    have := ReadsAs.trap (inRow 0x0F00#16 (by decide) h)
    rwa [trapvect8Bits_xor _ _ _ (by decide)] at this
  | rti h => exact .rti (inRow 0x0FFF#16 (by decide) h)
  | res h => exact .res (inRow 0x0FFF#16 (by decide) h)

/-- The ignored bits do not depend on the special name that the decoder gives. -/
theorem ReadsAs.ignoredBits_decode {w : Word} {i : Instr} (h : ReadsAs w i) : (decode w).ignoredBits = i.ignoredBits := by
  rw [decode, ignoredBits_canonical, h.decodePrimary_eq]

/-- Settles O3: the changed word reads as the same instruction; the bits are those of the row's format. -/
theorem ignoredBitsHaveNoEffect : Obligations.IgnoredBitsHaveNoEffect := by
  refine ⟨fun w m => ?unread, fun w => ⟨fun h => h.elim ?add ?and, ?not, ?jmp, ?jsrr, ?trap, fun h => h.elim ?rti ?res⟩⟩
  case unread =>
    have hi := readsAs_decodePrimary w
    rw [hi.ignoredBits_decode, decode, (hi.xor_ignored m).decodePrimary_eq, decode]
  case add => exact fun h => (ReadsAs.addReg h).ignoredBits_decode
  case and => exact fun h => (ReadsAs.andReg h).ignoredBits_decode
  case not => exact fun h => (ReadsAs.not h).ignoredBits_decode
  case jmp => exact fun h => (ReadsAs.jmp h).ignoredBits_decode
  case jsrr => exact fun h => (ReadsAs.jsrr h).ignoredBits_decode
  case trap => exact fun h => (ReadsAs.trap h).ignoredBits_decode
  case rti => exact fun h => (ReadsAs.rti h).ignoredBits_decode
  case res => exact fun h => (ReadsAs.res h).ignoredBits_decode

/-! ### Encoding what a word reads as (R105, R121)

Two words agree in every bit that a format names when they agree under the row's mask and in each field. -/

section Agreement
variable {v w : Word}

theorem and_or_congr {k l : Word} (hk : v &&& k = w &&& k) (hl : v &&& l = w &&& l) :
    v &&& (k ||| l) = w &&& (k ||| l) := by
  rw [BitVec.and_or_distrib_left, BitVec.and_or_distrib_left, hk, hl]

/-- Words with the same field agree under the mask of the field's bits. -/
theorem and_congr_of_extract {k : Word} (a n : Nat) (hk : k = (BitVec.allOnes n).setWidth 16 <<< a)
    (h : v.extractLsb' a n = w.extractLsb' a n) : v &&& k = w &&& k := by
  apply BitVec.eq_of_getLsbD_eq
  intro i hi
  have hbit : a ≤ i → i - a < n → v.getLsbD i = w.getLsbD i := by
    intro ha hn
    have := congrArg (fun f => f.getLsbD (i - a)) h
    simpa [hn, Nat.add_sub_cancel' ha] using this
  have hout : ¬ (a ≤ i ∧ i - a < n) → k.getLsbD i = false := by
    intro hin
    rw [hk]
    simp
    omega
  rw [BitVec.getLsbD_and, BitVec.getLsbD_and]
  by_cases hin : a ≤ i ∧ i - a < n
  · rw [hbit hin.1 hin.2]
  · rw [hout hin, Bool.and_false, Bool.and_false]

theorem and_congr_field11to9 (h : field11to9 v = field11to9 w) : v &&& 0x0E00#16 = w &&& 0x0E00#16 :=
  and_congr_of_extract 9 3 (by decide) h

theorem and_congr_field8to6 (h : field8to6 v = field8to6 w) : v &&& 0x01C0#16 = w &&& 0x01C0#16 :=
  and_congr_of_extract 6 3 (by decide) h

theorem and_congr_field2to0 (h : field2to0 v = field2to0 w) : v &&& 0x0007#16 = w &&& 0x0007#16 :=
  and_congr_of_extract 0 3 (by decide) h

theorem and_congr_imm5Bits (h : imm5Bits v = imm5Bits w) : v &&& 0x001F#16 = w &&& 0x001F#16 :=
  and_congr_of_extract 0 5 (by decide) h

theorem and_congr_offset6Bits (h : offset6Bits v = offset6Bits w) : v &&& 0x003F#16 = w &&& 0x003F#16 :=
  and_congr_of_extract 0 6 (by decide) h

theorem and_congr_pcOffset9Bits (h : pcOffset9Bits v = pcOffset9Bits w) : v &&& 0x01FF#16 = w &&& 0x01FF#16 :=
  and_congr_of_extract 0 9 (by decide) h

theorem and_congr_pcOffset11Bits (h : pcOffset11Bits v = pcOffset11Bits w) : v &&& 0x07FF#16 = w &&& 0x07FF#16 :=
  and_congr_of_extract 0 11 (by decide) h

theorem and_congr_trapvect8Bits (h : trapvect8Bits v = trapvect8Bits w) : v &&& 0x00FF#16 = w &&& 0x00FF#16 :=
  and_congr_of_extract 0 8 (by decide) h

/-! The formats that more than one row has; the mask on the right is every bit the format names. -/

theorem and_congr_op3r (row : v &&& 0xF020#16 = w &&& 0xF020#16) (h9 : field11to9 v = field11to9 w)
    (h6 : field8to6 v = field8to6 w) (h0 : field2to0 v = field2to0 w) : v &&& ~~~0x0018#16 = w &&& ~~~0x0018#16 := by
  have named : ~~~0x0018#16 = 0xF020#16 ||| 0x0E00#16 ||| 0x01C0#16 ||| 0x0007#16 := by decide
  rw [named]
  exact and_or_congr (and_or_congr (and_or_congr row (and_congr_field11to9 h9)) (and_congr_field8to6 h6))
    (and_congr_field2to0 h0)

theorem and_congr_op3i (row : v &&& 0xF020#16 = w &&& 0xF020#16) (h9 : field11to9 v = field11to9 w)
    (h6 : field8to6 v = field8to6 w) (h0 : imm5Bits v = imm5Bits w) : v &&& ~~~0x0000#16 = w &&& ~~~0x0000#16 := by
  have named : ~~~0x0000#16 = 0xF020#16 ||| 0x0E00#16 ||| 0x01C0#16 ||| 0x001F#16 := by decide
  rw [named]
  exact and_or_congr (and_or_congr (and_or_congr row (and_congr_field11to9 h9)) (and_congr_field8to6 h6))
    (and_congr_imm5Bits h0)

theorem and_congr_pc9 (row : v &&& 0xF000#16 = w &&& 0xF000#16) (h9 : field11to9 v = field11to9 w)
    (h0 : pcOffset9Bits v = pcOffset9Bits w) : v &&& ~~~0x0000#16 = w &&& ~~~0x0000#16 := by
  have named : ~~~0x0000#16 = 0xF000#16 ||| 0x0E00#16 ||| 0x01FF#16 := by decide
  rw [named]
  exact and_or_congr (and_or_congr row (and_congr_field11to9 h9)) (and_congr_pcOffset9Bits h0)

theorem and_congr_base6 (row : v &&& 0xF000#16 = w &&& 0xF000#16) (h9 : field11to9 v = field11to9 w)
    (h6 : field8to6 v = field8to6 w) (h0 : offset6Bits v = offset6Bits w) :
    v &&& ~~~0x0000#16 = w &&& ~~~0x0000#16 := by
  have named : ~~~0x0000#16 = 0xF000#16 ||| 0x0E00#16 ||| 0x01C0#16 ||| 0x003F#16 := by decide
  rw [named]
  exact and_or_congr (and_or_congr (and_or_congr row (and_congr_field11to9 h9)) (and_congr_field8to6 h6))
    (and_congr_offset6Bits h0)

end Agreement

/-- Encoding the instruction a word reads as gives a word with the same named bits. -/
theorem ReadsAs.encode_agrees {w : Word} {i : Instr} (hi : ReadsAs w i) :
    encode i &&& ~~~i.ignoredBits = w &&& ~~~i.ignoredBits := by
  cases hi with
  | br h => refine and_congr_pc9 ((EncodeInRow.br _ _).trans h.symm) ?_ ?_ <;> simp [encode]
  | ld h => refine and_congr_pc9 ((EncodeInRow.ld _ _).trans h.symm) ?_ ?_ <;> simp [encode]
  | ldi h => refine and_congr_pc9 ((EncodeInRow.ldi _ _).trans h.symm) ?_ ?_ <;> simp [encode]
  | lea h => refine and_congr_pc9 ((EncodeInRow.lea _ _).trans h.symm) ?_ ?_ <;> simp [encode]
  | st h => refine and_congr_pc9 ((EncodeInRow.st _ _).trans h.symm) ?_ ?_ <;> simp [encode]
  | sti h => refine and_congr_pc9 ((EncodeInRow.sti _ _).trans h.symm) ?_ ?_ <;> simp [encode]
  | addReg h => refine and_congr_op3r ((EncodeInRow.addReg _ _ _).trans h.symm) ?_ ?_ ?_ <;> simp [encode]
  | andReg h => refine and_congr_op3r ((EncodeInRow.andReg _ _ _).trans h.symm) ?_ ?_ ?_ <;> simp [encode]
  | addImm h => refine and_congr_op3i ((EncodeInRow.addImm _ _ _).trans h.symm) ?_ ?_ ?_ <;> simp [encode]
  | andImm h => refine and_congr_op3i ((EncodeInRow.andImm _ _ _).trans h.symm) ?_ ?_ ?_ <;> simp [encode]
  | ldr h => refine and_congr_base6 ((EncodeInRow.ldr _ _ _).trans h.symm) ?_ ?_ ?_ <;> simp [encode]
  | str h => refine and_congr_base6 ((EncodeInRow.str _ _ _).trans h.symm) ?_ ?_ ?_ <;> simp [encode]
  | not h =>
    have named : ~~~0x003F#16 = 0xF000#16 ||| 0x0E00#16 ||| 0x01C0#16 := by decide
    rw [Instr.ignoredBits, named]
    refine and_or_congr (and_or_congr ((EncodeInRow.not _ _).trans h.symm) (and_congr_field11to9 ?_))
      (and_congr_field8to6 ?_)
    · exact (base6_field11to9 _ _ _ _).trans (regToBits_regOfBits _)
    · exact (base6_field8to6 _ _ _ _).trans (regToBits_regOfBits _)
  | jsr h =>
    have named : ~~~0x0000#16 = 0xF800#16 ||| 0x07FF#16 := by decide
    rw [Instr.ignoredBits, named]
    exact and_or_congr ((EncodeInRow.jsr _).trans h.symm) (and_congr_pcOffset11Bits (jsr_pcOffset11Bits _ _))
  | jsrr h =>
    have named : ~~~0x063F#16 = 0xF800#16 ||| 0x01C0#16 := by decide
    rw [Instr.ignoredBits, named]
    exact and_or_congr ((EncodeInRow.jsrr _).trans h.symm)
      (and_congr_field8to6 ((jsrr_field8to6 _ _).trans (regToBits_regOfBits _)))
  | jmp h =>
    have named : ~~~0x0E3F#16 = 0xF000#16 ||| 0x01C0#16 := by decide
    rw [Instr.ignoredBits, named]
    exact and_or_congr ((EncodeInRow.jmp _).trans h.symm) (and_congr_field8to6 (by simp [encode]))
  | trap h =>
    have named : ~~~0x0F00#16 = 0xF000#16 ||| 0x00FF#16 := by decide
    rw [Instr.ignoredBits, named]
    exact and_or_congr ((EncodeInRow.trap _).trans h.symm) (and_congr_trapvect8Bits (by simp [encode]))
  | rti h => exact EncodeInRow.rti.trans h.symm
  | res h => exact EncodeInRow.res.trans h.symm

/-- Settles O2: the special name has its parent's word, which agrees with the word decoded in every named bit. -/
theorem encodeOfDecode : Obligations.EncodeOfDecode := by
  refine fun w => ⟨canonical_wf _, ?_⟩
  rw [decode, encode_canonical, ignoredBits_canonical]
  exact (readsAs_decodePrimary w).encode_agrees

/-! ### The partition into rows (R103, R125, R126) -/

/-- The opcode is the word shifted right by twelve (R103). -/
theorem opcodeBits_toNat (w : Word) : (opcodeBits w).toNat = (w >>> 12).toNat := by
  have := w.isLt
  simp only [opcodeBits, BitVec.extractLsb'_toNat, BitVec.toNat_ushiftRight, Nat.shiftRight_eq_div_pow]
  omega

/-- Two rows with a word in common agree in the bits both of them fix. -/
theorem EncRow.pattern_agree {r q : EncRow} {w : Word} (hr : r.has w = true) (hq : q.has w = true) :
    r.pattern &&& q.mask = q.pattern &&& r.mask := by
  have hr : w &&& r.mask = r.pattern := by simpa [EncRow.has] using hr
  have hq : w &&& q.mask = q.pattern := by simpa [EncRow.has] using hq
  rw [← hr, ← hq, BitVec.and_assoc, BitVec.and_assoc, BitVec.and_comm r.mask]

/-- No two primary rows agree in the bits both of them fix. -/
theorem primaryRows_disjoint :
    ∀ r ∈ primaryRows, ∀ q ∈ primaryRows, r.pattern &&& q.mask = q.pattern &&& r.mask → r = q := by
  decide

theorem decode_row_has (w : Word) : (decode w).row.has w = true := by
  rw [decode, row_canonical]
  exact decodePrimary_row_has w

/-- Settles O4: the row of the instruction read has the word, and rows with a word in common are one row. -/
theorem rowsPartitionTheWords : Obligations.RowsPartitionTheWords :=
  ⟨rfl, fun w => ⟨opcodeBits_toNat w, row_mem_primaryRows _, decode_row_has w, fun r hr hw =>
    primaryRows_disjoint r hr _ (row_mem_primaryRows _) (EncRow.pattern_agree hw (decode_row_has w))⟩⟩

/-- Settles O5: each word is in the row of its instruction. -/
theorem decodesTheSpecsWords : Obligations.DecodesTheSpecsWords :=
  ⟨decode_addImm _ rfl, decode_addReg _ rfl, decode_andImm _ rfl, decode_not _ rfl, decode_br _ rfl, decode_jsr _ rfl,
    decode_jsrr _ rfl, decode_jmp _ rfl, decode_jmp _ rfl, decode_ldi _ rfl, decode_ldr _ rfl, decode_lea _ rfl,
    decode_sti _ rfl, decode_str _ rfl, decode_rti _ rfl, decode_res _ rfl, decode_trap _ rfl, decode_trap _ rfl,
    decode_br _ rfl⟩

end Sys2Proof

/-!
PROOF. The step (spec/30_encoding.md R100, R101), the special names at run time (R125, R161, R163, R220) and the reserved opcodes
(spec/45_reserved.md R260, R261). O6, O12, O14, O45.
-/

namespace Sys2Proof.Machine

/-! ### Special names (R125) -/

/-- No condition bit is no branch (R161 (a)). -/
theorem branchTaken_zero (s : State) : branchTaken 0#3 s = false := by simp [branchTaken]

theorem exec_br_zero (off : BitVec 9) (s : State) : exec (.br 0#3 off) s = exec (.nop off) s := by
  simp [exec, execBr, execNop, branchTaken_zero]

/-- Settles O6: BR without a condition bit stays, JMP R7 is RET's jump, and TRAP runs the service of its vector's name; an
unknown vector has its name already. -/
theorem aliasRunsAsItsParent : Obligations.AliasRunsAsItsParent := by
  intro i s hunknown
  cases i with
  | br nzp off =>
    by_cases hz : nzp = 0#3
    · subst hz; exact exec_br_zero off s
    · rw [Instr.canonical, if_neg hz]
  | jmp base =>
    by_cases h7 : base = .r7
    · subst h7; rfl
    · rw [Instr.canonical, if_neg h7]
  | trap v => exact (exec_nameOfVector v s).symm
  | trapUnknown v =>
    have hwf : (Instr.trapUnknown v).wf = true := by simp [Instr.wf, hunknown v rfl]
    rw [canonical_of_wf hwf]
  | _ => rfl

/-! ### The step -/

/-- A step of a run that is over answers why it is over (R101). -/
theorem step_stopped {s : State} {f : Fault} (h : stopReason s = some f) : step s = .fault f := by
  rw [step, h]

/-- A running state has a next one: the service in progress goes on, or an instruction runs, and none refuses. -/
theorem step_of_runs {s : State} (hr : Runs s) : ∃ t, step s = .next t := by
  cases hp : s.pending with
  | some p => exact ⟨_, step_resume hr hp⟩
  | none => exact ⟨_, (step_fetch hr hp).trans (exec_eq_after _ _)⟩

/-- Settles O14: a running state steps, and every other has its reason to stop. -/
theorem stepExistsExactlyWhileRunning : Obligations.StepExistsExactlyWhileRunning :=
  fun s => ⟨step_of_runs,
    fun hst hrun => step_stopped (by simp [stopReason, hst, hrun]),
    fun hst => step_stopped (by simp [stopReason, hst]),
    fun hst => step_stopped (by simp [stopReason, hst]),
    fun hst => step_stopped (by simp [stopReason, hst])⟩

/-- Settles O12: away from KBSR the fetch reads memory; at KBSR it is the bus read, which polls. -/
theorem stepRunsTheDecodedInstruction : Obligations.StepRunsTheDecodedInstruction := by
  refine fun s hr hp => ⟨step_runs_mem hr hp, fun hpc => ⟨_, _, busReadPolls 0xFE00#16 (hostTurn s), ?_⟩⟩
  rw [step_fetch hr hp, fetch_eq, hostTurn_pc, hpc]
  rfl

/-! ### RTI and RES -/

/-- Settles O45: both opcodes' words read as the fault, which writes the status alone, and the status is terminal. -/
theorem reservedOpcodesFault : Obligations.ReservedOpcodesFault := by
  refine ⟨fun w => ⟨decode_rti w, decode_res w⟩, fun i s hi => ⟨takeFault .illegalOpcode s, ?exec, ?_⟩⟩
  case exec => rcases hi with rfl | rfl <;> rfl
  exact ⟨rfl, rfl, rfl, fun _ => rfl, rfl, rfl, fun _ => rfl, ⟨⟨rfl, rfl, rfl, rfl⟩, rfl, rfl⟩, step_stopped rfl⟩

end Sys2Proof.Machine

/-!
PROOF. ADD, AND and NOT (spec/40_alu.md R140 to R145, R148): the words of each form, the result, and that nothing but DR and
COND changes. O29, O30, O31, O32, O33.
-/

namespace Sys2Proof.Machine

/-- R[DR] <- v; SetCC(DR) classifies the result and leaves all but DR and COND alone (R32). -/
theorem writeResult_frame (dr : Reg) (v : Word) (s : State) :
    Classifies (writeResult dr v s).cond ((writeResult dr v s).reg dr) ∧
    SameRegsBut dr s (writeResult dr v s) ∧ (writeResult dr v s).pc = s.pc ∧ SameMem s (writeResult dr v s) ∧
    SameRun s (writeResult dr v s) ∧ SameHost s (writeResult dr v s) := by
  refine ⟨?classified, fun q hq => writeResult_reg_ne dr q v s hq, rfl, fun _ => rfl, ⟨rfl, rfl, rfl⟩,
    ⟨rfl, rfl, rfl, rfl⟩, rfl, rfl⟩
  rw [writeResult_cond, writeResult_reg_same]
  exact condOf_classifies v

/-- A sum in DR is the sum of the operands' values modulo 65536 (R8). -/
theorem writeResult_add_toNat (dr : Reg) (a b : Word) (s : State) :
    ((writeResult dr (a + b) s).reg dr).toNat = (a.toNat + b.toNat) % 65536 := by
  rw [writeResult_reg_same, BitVec.toNat_add]

/-- A conjunction in DR has the bits both operands have. -/
theorem writeResult_and_getLsbD (dr : Reg) (a b : Word) (s : State) (i : Nat) :
    ((writeResult dr (a &&& b) s).reg dr).getLsbD i = (a.getLsbD i && b.getLsbD i) := by
  rw [writeResult_reg_same, BitVec.getLsbD_and]

/-- A complement in DR is the distance from 65535 (R145). -/
theorem writeResult_not_toNat (dr : Reg) (a : Word) (s : State) :
    ((writeResult dr (~~~a) s).reg dr).toNat = 65535 - a.toNat := by
  rw [writeResult_reg_same, BitVec.toNat_not]

/-- Settles O29: the result is a word sum of two registers. -/
theorem addRegister : Obligations.AddRegister :=
  ⟨decode_addReg, fun dr sr1 sr2 s =>
    ⟨_, rfl, writeResult_add_toNat dr (s.reg sr1) (s.reg sr2) s, writeResult_frame dr _ s⟩⟩

/-- Settles O30: the result is the word sum of a register and the extended immediate. -/
theorem addImmediate : Obligations.AddImmediate :=
  ⟨decode_addImm, fun dr sr1 imm s =>
    ⟨_, rfl, writeResult_add_toNat dr (s.reg sr1) (sext imm) s, writeResult_frame dr _ s⟩⟩

/-- Settles O31: the result is the conjunction of two registers. -/
theorem andRegister : Obligations.AndRegister :=
  ⟨decode_andReg, fun dr sr1 sr2 s =>
    ⟨_, rfl, fun i _ => writeResult_and_getLsbD dr (s.reg sr1) (s.reg sr2) s i, writeResult_frame dr _ s⟩⟩

/-- Settles O32: the result is the conjunction of a register and the immediate, extended before. -/
theorem andImmediate : Obligations.AndImmediate :=
  ⟨decode_andImm, fun dr sr1 imm s =>
    ⟨_, rfl, fun i _ => writeResult_and_getLsbD dr (s.reg sr1) (sext imm) s i, writeResult_frame dr _ s⟩⟩

/-- Settles O33: the result is the complement of a register. -/
theorem notComplements : Obligations.NotComplements :=
  ⟨decode_not, fun dr sr1 s => ⟨_, rfl, writeResult_not_toNat dr (s.reg sr1) s, writeResult_frame dr _ s⟩⟩

end Sys2Proof.Machine

/-!
PROOF. BR, NOP, JMP, RET, JSR and JSRR (spec/41_control.md R160 to R166): the words of each, where PC goes, and that nothing
but PC, and R7 for a call, changes. O34, O35, O36, O37.
-/

namespace Sys2Proof.Machine

/-- Writing PC leaves all else alone. -/
theorem setPc_frame (v : Word) (s : State) :
    (s.setPc v).cond = s.cond ∧ SameRegs s (s.setPc v) ∧ SameMem s (s.setPc v) ∧ SameRun s (s.setPc v) ∧
    SameHost s (s.setPc v) :=
  ⟨rfl, fun _ => rfl, fun _ => rfl, ⟨rfl, rfl, rfl⟩, ⟨rfl, rfl, rfl, rfl⟩, rfl, rfl⟩

/-- A call leaves all but R7 and PC alone (R32, R169). -/
theorem call_frame (v : Word) (s : State) :
    ((link s).setPc v).cond = s.cond ∧ SameRegsBut .r7 s ((link s).setPc v) ∧ SameMem s ((link s).setPc v) ∧
    SameRun s ((link s).setPc v) ∧ SameHost s ((link s).setPc v) :=
  ⟨rfl, fun q hq => link_reg_ne s q hq, fun _ => rfl, ⟨rfl, rfl, rfl⟩, ⟨rfl, rfl, rfl, rfl⟩, rfl, rfl⟩

/-! ### BR -/

/-- The branch test finds a bit that nzp and COND have in common (R160). -/
theorem branchTaken_iff (nzp : BitVec 3) (s : State) :
    branchTaken nzp s = true ↔ ∃ i < 3, nzp.getLsbD i = true ∧ s.cond.getLsbD i = true := by
  have nonzero : branchTaken nzp s = true ↔ nzp.setWidth 16 &&& s.cond ≠ 0x0000#16 := bne_iff_ne
  rw [nonzero]
  constructor
  · intro hne
    by_contra hnone
    refine hne (BitVec.eq_of_getLsbD_eq fun i _ => ?_)
    rw [BitVec.getLsbD_zero, Bool.eq_false_iff]
    intro hbit
    simp only [BitVec.getLsbD_and, BitVec.getLsbD_setWidth, Bool.and_eq_true] at hbit
    obtain ⟨⟨-, hn⟩, hc⟩ := hbit
    exact hnone ⟨i, BitVec.lt_of_getLsbD hn, hn, hc⟩
  · rintro ⟨i, hi, hn, hc⟩ hzero
    have hi16 : i < 16 := by omega
    have hbit : (nzp.setWidth 16 &&& s.cond).getLsbD i = true := by
      rw [BitVec.getLsbD_and, BitVec.getLsbD_setWidth, decide_eq_true hi16, hn, hc]
      rfl
    rw [hzero, BitVec.getLsbD_zero] at hbit
    exact Bool.false_ne_true hbit

/-- BR writes PC, with the value it had when the branch is not taken (R160). -/
theorem exec_br (nzp : BitVec 3) (off : BitVec 9) (s : State) :
    exec (.br nzp off) s = .next (s.setPc (if branchTaken nzp s then s.pc + sext off else s.pc)) := by
  show execBr nzp off s = _
  unfold execBr
  split <;> rfl

/-- Settles O34: the two clauses on PC are the two answers of the branch test. -/
theorem branchOnCond : Obligations.BranchOnCond := by
  refine ⟨fun w hw => ⟨fun hnzp => ?br, fun hnzp => ?nop⟩,
    fun nzp off s => ⟨_, exec_br nzp off s, ?taken, ?notTaken, setPc_frame _ s⟩, fun _ _ => rfl⟩
  case br => exact (decode_br w hw).trans (if_neg hnzp)
  case nop => exact (decode_br w hw).trans (if_pos hnzp)
  case taken => exact fun h => if_pos ((branchTaken_iff nzp s).mpr h)
  case notTaken =>
    intro hnone
    refine if_neg fun h => ?_
    obtain ⟨i, hi, hbits⟩ := (branchTaken_iff nzp s).mp h
    exact hnone i hi hbits

/-! ### JMP and RET -/

theorem regOfBits_eq_r7 (b : BitVec 3) : regOfBits b = .r7 ↔ b = 7#3 := by revert b; decide

/-- Settles O35: the alias row's words are those whose base field is 7. -/
theorem jumpToRegister : Obligations.JumpToRegister := by
  refine ⟨fun w hw => ⟨fun hbase => ?jmp, fun hbase => ?ret⟩,
    fun base s => ⟨_, rfl, rfl, setPc_frame _ s⟩, fun s => ⟨_, rfl, rfl, setPc_frame _ s⟩⟩
  case jmp => exact (decode_jmp w hw).trans (if_neg fun h => hbase ((regOfBits_eq_r7 _).mp h))
  case ret => exact (decode_jmp w hw).trans (if_pos ((regOfBits_eq_r7 _).mpr hbase))

/-! ### JSR and JSRR -/

/-- Settles O36: the link write leaves PC, so the offset is added to the address after the JSR. -/
theorem jsrLinksAndJumps : Obligations.JsrLinksAndJumps :=
  ⟨decode_jsr, fun _ s => ⟨_, rfl, link_reg_r7 s, rfl, call_frame _ s⟩⟩

/-- Settles O37: the base is read after the link write, which only R7 shows. -/
theorem jsrrLinksThenJumps : Obligations.JsrrLinksThenJumps := by
  refine ⟨decode_jsrr, fun base s => ⟨_, rfl, link_reg_r7 s, fun hbase => ?other, fun hbase => ?r7, call_frame _ s⟩⟩
  case other => exact link_reg_ne s base hbase
  case r7 => rw [hbase]; exact link_reg_r7 s

end Sys2Proof.Machine

/-!
PROOF. LD, LDI, LDR and LEA (spec/42_load.md R180 to R184): the words of each, the bus reads each makes, and that beside them
nothing but DR and COND changes. O38, O39, O40, O41.
-/

namespace Sys2Proof.Machine

/-- A load puts the word its bus read answers in DR, classifies it, and leaves all else as the bus read left it (R180). -/
theorem loadFrom_frame (dr : Reg) (ea : Word) (s : State) :
    (loadFrom dr ea s).reg dr = (memRead ea s).1 ∧ Classifies (loadFrom dr ea s).cond (memRead ea s).1 ∧
    SameRegsBut dr (memRead ea s).2 (loadFrom dr ea s) ∧ (loadFrom dr ea s).pc = (memRead ea s).2.pc ∧
    SameMem (memRead ea s).2 (loadFrom dr ea s) ∧ SameRun (memRead ea s).2 (loadFrom dr ea s) ∧
    SameHost (memRead ea s).2 (loadFrom dr ea s) := by
  have hreg : (loadFrom dr ea s).reg dr = (memRead ea s).1 := loadFrom_reg_same dr ea s
  obtain ⟨hclass, hrest⟩ := writeResult_frame dr (memRead ea s).1 (memRead ea s).2
  exact ⟨hreg, hreg ▸ hclass, hrest⟩

/-- Settles O38: one bus read, at the PC-relative address. -/
theorem loadPcRelative : Obligations.LoadPcRelative :=
  ⟨decode_ld, fun dr off s => ⟨_, _, _, busReadPolls (pcRelative off s) s, rfl, loadFrom_frame dr _ s⟩⟩

/-- Settles O39: the second bus read is made in the state the first one left, at the address it answered. -/
theorem loadIndirect : Obligations.LoadIndirect :=
  ⟨decode_ldi, fun dr off s =>
    ⟨_, _, _, _, _, busReadPolls (pcRelative off s) s, busReadPolls (readPointer off s).1 (readPointer off s).2, rfl,
      loadFrom_frame dr _ _⟩⟩

/-- Settles O40: one bus read, at the address formed from the base before DR is written. -/
theorem loadBaseOffset : Obligations.LoadBaseOffset :=
  ⟨decode_ldr, fun dr base off s => ⟨_, _, _, busReadPolls (baseOffset base off s) s, rfl, loadFrom_frame dr _ s⟩⟩

/-- Settles O41: the result is the word sum of PC and the extended offset, and no bus read is made. -/
theorem loadEffectiveAddress : Obligations.LoadEffectiveAddress :=
  ⟨decode_lea, fun dr off s => ⟨_, rfl, writeResult_add_toNat dr s.pc (sext off) s, writeResult_frame dr _ s⟩⟩

end Sys2Proof.Machine

/-!
PROOF. ST, STI and STR (spec/43_store.md R200 to R203): the words of each, the cell each writes, and that beside it, and the
bus read of STI's pointer, nothing changes. O42, O43, O44.
-/

namespace Sys2Proof.Machine

/-- A store writes the one cell at its address and leaves all else alone (R200). -/
theorem memWrite_stores (ea v : Word) (s : State) :
    (∀ a : Word, a = ea → (memWrite ea v s).mem.read a = v ∧ SameMemBut a s (memWrite ea v s)) ∧
    SameRegs s (memWrite ea v s) ∧ (memWrite ea v s).pc = s.pc ∧ (memWrite ea v s).cond = s.cond ∧
    SameRun s (memWrite ea v s) ∧ SameHost s (memWrite ea v s) := by
  obtain ⟨hcell, hothers, hrest⟩ := busWriteStores ea v s
  refine ⟨?_, hrest⟩
  rintro a rfl
  exact ⟨hcell, hothers⟩

/-- Settles O42: one bus write, at the PC-relative address. -/
theorem storePcRelative : Obligations.StorePcRelative :=
  ⟨decode_st, fun sr off s => ⟨_, rfl, memWrite_stores (pcRelative off s) (s.reg sr) s⟩⟩

/-- Settles O43: the bus write is made in the state the pointer's read left; the read has changed neither the register
stored nor anything else outside memory and the input channel. -/
theorem storeIndirect : Obligations.StoreIndirect := by
  refine ⟨decode_sti, fun sr off s => ?_⟩
  obtain ⟨hcell, hothers, -, -, -, -, hhost⟩ :=
    busWriteStores (readPointer off s).1 ((readPointer off s).2.reg sr) (readPointer off s).2
  exact ⟨_, _, _, busReadPolls (pcRelative off s) s, rfl, hcell.trans (memRead_reg _ s sr), hothers, memRead_reg _ s,
    memRead_pc _ s, memRead_cond _ s, ⟨memRead_running _ s, memRead_status _ s, memRead_pending _ s⟩, hhost⟩

/-- Settles O44: one bus write, at the address formed from the base, which SR may share. -/
theorem storeBaseOffset : Obligations.StoreBaseOffset :=
  ⟨decode_str, fun sr base off s => ⟨_, rfl, memWrite_stores (baseOffset base off s) (s.reg sr) s⟩⟩

end Sys2Proof.Machine

/-!
PROOF. TRAP's link write and its dispatch on the vector (spec/44_trap.md R220, R221, R228, R232). O46, O54.
-/

namespace Sys2Proof.Machine

/-- A word of opcode 1111 is named by its low eight bits (R122, R125, R221). -/
theorem decode_trap_of_vector {w : Word} {v : BitVec 8} (hw : w &&& 0xF000#16 = 0xF000#16)
    (hv : w.extractLsb' 0 8 = v) : decode w = nameOfVector v :=
  hv ▸ decode_trap w hw

/-- TRAP by its parent's name runs as its vector's name says (R125, R220). -/
theorem exec_trap (v : BitVec 8) (s : State) : exec (.trap v) s = exec (nameOfVector v) s :=
  aliasRunsAsItsParent (.trap v) s nofun

/-- Whatever its vector, a TRAP is the link write and then a service, or nothing more. -/
theorem exec_trap_frame {i : Instr} {s t : State} (hrow : i.row = ⟨0xF000#16, 0xF000#16⟩) (hx : exec i s = .next t) :
    ServiceFrame (link s) t := by
  cases i <;> cases hx
  case trap v => exact trapService_frame v _
  case trapGetc => exact serveGetc_frame _
  case trapOut => exact serveOut_frame _
  case trapPuts => exact serveString_frame _ _ _
  case trapIn => exact serveIn_frame _
  case trapPutsp => exact serveString_frame _ _ _
  case trapHalt => exact serveHalt_frame _
  case trapUnknown => exact ⟨fun _ _ => rfl, rfl, rfl, rfl, rfl, rfl⟩
  all_goals simp [Instr.row] at hrow

/-- Settles O46: the six vectors have six names, and no service touches R7, PC or memory after the link write. -/
theorem trapLinksAndDispatches : Obligations.TrapLinksAndDispatches := by
  refine ⟨fun w hw => ?words, fun i s t hrow hx => ?frame, fun s => ?parent⟩
  case words =>
    have named {v : BitVec 8} := decode_trap_of_vector (v := v) hw
    exact ⟨named, named, named, named, named, named⟩
  case frame =>
    have frame := exec_trap_frame hrow hx
    exact ⟨(frame.reg .r7 (by decide)).trans (link_reg_r7 s), frame.pc, fun a => by rw [frame.mem, link_mem]⟩
  case parent =>
    exact ⟨exec_trap _ s, exec_trap _ s, exec_trap _ s, exec_trap _ s, exec_trap _ s, exec_trap _ s⟩

/-- No vector outside 0x20 to 0x25 has a service (R221, R228). -/
theorem not_isServiceVector {v : BitVec 8} (hv : v.toNat < 0x20 ∨ 0x25 < v.toNat) : isServiceVector v = false := by
  simp only [isServiceVector, Bool.or_eq_false_iff, beq_eq_false_iff_ne]
  refine ⟨⟨⟨⟨⟨?_, ?_⟩, ?_⟩, ?_⟩, ?_⟩, ?_⟩
  all_goals
    rintro rfl
    exact absurd hv (by decide)

/-- A vector without a service names the unknown-vector TRAP (R122, R228). -/
theorem nameOfVector_unknown {v : BitVec 8} (hv : v.toNat < 0x20 ∨ 0x25 < v.toNat) : nameOfVector v = .trapUnknown v :=
  canonical_of_wf (i := .trapUnknown v) (by simp [Instr.wf, not_isServiceVector hv])

/-- The link write leaves all but R7 alone (R23, R32). -/
theorem link_frame (s : State) :
    SameRegsBut .r7 s (link s) ∧ (link s).pc = s.pc ∧ (link s).cond = s.cond ∧ SameMem s (link s) ∧
    SameRun s (link s) ∧ SameHost s (link s) :=
  ⟨link_reg_ne s, rfl, rfl, fun _ => rfl, ⟨rfl, rfl, rfl⟩, ⟨rfl, rfl, rfl, rfl⟩, rfl, rfl⟩

/-- Settles O54: such a vector names the unknown-vector TRAP, which is the link write alone. -/
theorem unknownVectorOnlyLinks : Obligations.UnknownVectorOnlyLinks := by
  refine ⟨fun w hw hv => ?word, fun v i s hv hi => ⟨link s, ?exec, link_reg_r7 s, link_frame s⟩⟩
  case word => exact (decode_trap_of_vector hw rfl).trans (nameOfVector_unknown hv)
  case exec =>
    rcases hi with rfl | rfl
    · rw [exec_trap, nameOfVector_unknown hv]
      rfl
    · rfl

end Sys2Proof.Machine

/-!
PROOF. GETC, and what lifts the wait of GETC and of IN (spec/44_trap.md R222, R225, R230, R231; spec/10_state.md R43). O13,
O47, O55, O56.
-/

namespace Sys2Proof.Machine

/-- Settles O13: no reason to stop holds, and the host's turn leaves the mark of the service. -/
theorem stepGoesOnWithTheServiceInProgress : Obligations.StepGoesOnWithTheServiceInProgress :=
  fun _ _ hr hp => step_resume hr hp

/-- Marking the service that is marked already changes nothing. -/
theorem setPending_of_pending {s : State} {p : Option Pending} (h : s.pending = p) : s.setPending p = s := by
  subst h
  rfl

/-! ### The outcomes of GETC -/

/-- A byte is there: it is taken and loaded (R222). -/
theorem serveGetc_byte {s : State} {b : Byte} {rest : List Byte} (hq : s.inq = b :: rest) :
    (serveGetc s).inq = rest ∧ ((serveGetc s).reg .r0).toNat = b.toNat ∧
    Classifies (serveGetc s).cond ((serveGetc s).reg .r0) ∧ (serveGetc s).pending = none ∧
    (serveGetc s).status = s.status := by
  rw [serveGetc, readThen_byte _ _ s b rest hq]
  exact ⟨rfl, loadInput_r0_toNat _ _, loadInput_classifies _ _, rfl, rfl⟩

/-- No byte is there and the host fails the read (R43, R230). -/
theorem serveGetc_fail {s : State} (hq : s.inq = []) (hf : s.inputFails = true) :
    serveGetc s = takeFault .io (s.setPending none) :=
  readThen_fail _ _ s hq hf

/-- No byte is there and the host has no answer (R43, R231). -/
theorem serveGetc_wait {s : State} (hq : s.inq = []) (hf : s.inputFails = false) :
    serveGetc s = s.setPending (some .getc) :=
  readThen_wait _ _ s hq hf

/-- Without a byte R0 and COND stay, whether the read fails or waits. -/
theorem serveGetc_noByte {s : State} (hq : s.inq = []) :
    (serveGetc s).inq = [] ∧ (serveGetc s).reg .r0 = s.reg .r0 ∧ (serveGetc s).cond = s.cond := by
  cases hf : s.inputFails with
  | true => rw [serveGetc_fail hq hf]; exact ⟨hq, rfl, rfl⟩
  | false => rw [serveGetc_wait hq hf]; exact ⟨hq, rfl, rfl⟩

/-- GETC echoes nothing (R222). -/
theorem serveGetc_sameOutput (s : State) : SameOutput s (serveGetc s) := by
  rcases readThen_cases .getc loadInput s with ⟨b, rest, -, e⟩ | ⟨-, -, e⟩ | ⟨-, -, e⟩ <;> rw [serveGetc, e] <;>
    exact ⟨rfl, rfl⟩

/-- Settles O47: the link write touches R7 alone, and the service is one blocking read with its three outcomes. -/
theorem getcReadsOneByte : Obligations.GetcReadsOneByte := by
  intro s
  have frame := serveGetc_frame (link s)
  refine ⟨serveGetc (link s), rfl, ?r7, frame.pc, fun q h0 h7 => ?regs, fun a => ?mem, serveGetc_sameOutput (link s),
    serveGetc_running _, frame.schedule, frame.oracleTurn, frame.inputFails, fun b rest hq => ?byte,
    serveGetc_noByte (s := link s), fun hq hf => ?fail, fun hq hf => ?wait⟩
  case r7 => rw [frame.reg .r7 (by decide), link_reg_r7]
  case regs => rw [frame.reg q h0, link_reg_ne s q h7]
  case mem => rw [frame.mem, link_mem]
  case byte =>
    obtain ⟨hinq, hr0, hcond, hpend, hst⟩ := serveGetc_byte (s := link s) hq
    exact ⟨hinq, hr0, hcond, hst, hpend⟩
  case fail => rw [serveGetc_fail (s := link s) hq hf]; exact ⟨rfl, rfl⟩
  case wait => rw [serveGetc_wait (s := link s) hq hf]; exact ⟨rfl, rfl⟩

/-! ### The waits -/

/-- What a service in progress leaves alone, seen from before the host's turn. -/
theorem resume_hostTurn_frame (p : Pending) (s : State) :
    (resume p (hostTurn s)).pc = s.pc ∧ (∀ q : Reg, q ≠ .r0 → (resume p (hostTurn s)).reg q = s.reg q) ∧
    SameMem s (resume p (hostTurn s)) := by
  have frame := resume_frame p (hostTurn s)
  exact ⟨frame.pc.trans (hostTurn_pc s), fun q hq => (frame.reg q hq).trans (hostTurn_reg s q),
    fun a => by rw [frame.mem, hostTurn_mem]⟩

/-- The host's turn leaves what the host takes of the output. -/
theorem hostTakes_hostTurn {s : State} {n : Nat} (h : HostTakes s n) : HostTakes (hostTurn s) n := by
  rwa [HostTakes, hostTurn_writesLeft]

/-- Settles O55: the step is the host's turn and then GETC's read again. -/
theorem waitingGetcResumes : Obligations.WaitingGetcResumes := by
  intro s hr hp
  obtain ⟨hpc, hregs, hmem⟩ := resume_hostTurn_frame .getc s
  obtain ⟨hst, -⟩ := hostTurn_runs hr
  obtain ⟨hout, -⟩ := serveGetc_sameOutput (hostTurn s)
  refine ⟨serveGetc (hostTurn s), step_resume hr hp, hpc, hregs, hmem, hout.trans (hostTurn_out s),
    fun hq hf => ?wait, fun hq hf => ?fail, fun b rest hq => ?byte⟩
  case wait => rw [serveGetc_wait hq hf, setPending_of_pending ((hostTurn_pending s).trans hp)]
  case fail =>
    rw [serveGetc_fail hq hf]
    exact ⟨rfl, hostTurn_reg s .r0, hostTurn_cond s⟩
  case byte =>
    obtain ⟨hinq, hr0, hcond, hpend, hkeep⟩ := serveGetc_byte hq
    exact ⟨hinq, hr0, hcond, hpend, hkeep.trans hst⟩

/-- Settles O56: the step is the host's turn and then IN's read again, with the echo behind it. -/
theorem waitingInResumes : Obligations.WaitingInResumes := by
  intro s hr hp
  obtain ⟨hpc, hregs, hmem⟩ := resume_hostTurn_frame .inp s
  obtain ⟨hst, -⟩ := hostTurn_runs hr
  refine ⟨awaitIn (hostTurn s), step_resume hr hp, hpc, hregs, hmem, fun hq hf => ?wait, fun hq hf => ?fail,
    fun b rest hq hw => ?echo, fun b rest hq hw => ?echoFails⟩
  case wait =>
    rw [awaitIn, readThen_wait _ _ _ hq hf]
    exact setPending_of_pending ((hostTurn_pending s).trans hp)
  case fail =>
    rw [awaitIn, readThen_fail _ _ _ hq hf]
    exact ⟨rfl, hostTurn_reg s .r0, hostTurn_cond s, hostTurn_out s⟩
  case echo =>
    rw [awaitIn_echo hq (hostTakes_hostTurn hw)]
    exact ⟨rfl, congrArg (· ++ [b]) (hostTurn_out s), loadInput_r0_toNat _ _, loadInput_classifies _ _, rfl, hst⟩
  case echoFails =>
    rw [awaitIn_echo_fails hq ((hostTurn_writesLeft s).trans hw)]
    exact ⟨rfl, hostTurn_out s, hostTurn_reg s .r0, hostTurn_cond s, rfl, rfl⟩

end Sys2Proof.Machine

/-!
PROOF. The services that only write (spec/44_trap.md R223, R224, R226, R227, R229, R230): OUT, PUTS, PUTSP and HALT, and PUTS
and PUTSP over a memory with no zero word. O48, O49, O51, O52, O53.
-/

namespace Sys2Proof.Machine

/-! ### Writing bytes to the host -/

/-- What a service that only writes leaves alone: all of the machine but the run state and the output. -/
structure OutputFrame (s t : State) : Prop where
  regs : t.regs = s.regs
  pc : t.pc = s.pc
  cond : t.cond = s.cond
  mem : t.mem = s.mem
  input : SameInput s t

theorem OutputFrame.reg {s t : State} (h : OutputFrame s t) (q : Reg) : t.reg q = s.reg q :=
  congrArg (·.get q) h.regs

theorem OutputFrame.sameMem {s t : State} (h : OutputFrame s t) : SameMem s t := fun a => congrArg (·.read a) h.mem

theorem OutputFrame.writeThen (bs : List Byte) {k : State → State} (s : State) (hk : ∀ u, OutputFrame u (k u)) :
    OutputFrame s (writeThen bs k (s.setPending none)) := by
  rcases writeThen_cases bs k (s.setPending none) with ⟨-, e⟩ | ⟨m, -, -, e⟩ <;> rw [e]
  · obtain ⟨hregs, hpc, hcond, hmem, hin⟩ :=
      hk ((s.setPending none).setOut (s.out ++ bs) (s.writesLeft.map (· - bs.length)))
    exact ⟨hregs, hpc, hcond, hmem, hin⟩
  · exact ⟨rfl, rfl, rfl, rfl, rfl, rfl, rfl, rfl⟩

/-- After the link write: R7 holds the address after the TRAP, and nothing else of the machine has changed (R220). -/
theorem OutputFrame.afterLink {s t : State} (h : OutputFrame (link s) t) :
    t.reg .r7 = s.pc ∧ t.pc = s.pc ∧ SameRegsBut .r7 s t ∧ t.cond = s.cond ∧ SameMem s t ∧ SameInput s t :=
  ⟨(h.reg .r7).trans (link_reg_r7 s), h.pc, fun q hq => (h.reg q).trans (link_reg_ne s q hq), h.cond, h.sameMem, h.input⟩

/-- The host fails after `m` bytes, whatever was to come behind them (R230). -/
theorem writeThen_fault {bs : List Byte} {s : State} {m : Nat} (k : State → State) (hw : s.writesLeft = some m)
    (hm : m < bs.length) :
    (writeThen bs k (s.setPending none)).running = s.running ∧ (writeThen bs k (s.setPending none)).pending = none ∧
    (writeThen bs k (s.setPending none)).status = .faultIo ∧
    WroteUntilFail bs m s (writeThen bs k (s.setPending none)) := by
  rw [writeThen_fails bs k (s.setPending none) m hw hm]
  exact ⟨rfl, rfl, rfl, rfl, rfl⟩

/-! ### OUT, PUTS and PUTSP -/

/-- The service that writes bytes and ends. -/
def writeOut (bs : List Byte) (s : State) : State := writeThen bs id (s.setPending none)

theorem writeOut_pending (bs : List Byte) (s : State) : (writeOut bs s).pending = none := by
  rcases writeThen_cases bs id (s.setPending none) with ⟨-, e⟩ | ⟨m, -, -, e⟩ <;> rw [writeOut, e] <;> rfl

theorem writeOut_takes {bs : List Byte} {s : State} (hw : HostTakes s bs.length) :
    (writeOut bs s).status = s.status ∧ Wrote bs s (writeOut bs s) := by
  rw [writeOut, writeThen_takes bs id (s.setPending none) hw]
  exact ⟨rfl, rfl, rfl⟩

/-- The link write and then a service that writes bytes and ends: its frame and its two outcomes. -/
theorem writeOut_link {bs : List Byte} {s t : State} (ht : t = writeOut bs (link s)) :
    t.reg .r7 = s.pc ∧ t.pc = s.pc ∧ SameRegsBut .r7 s t ∧ t.cond = s.cond ∧ SameMem s t ∧ SameInput s t ∧
    t.running = s.running ∧ t.pending = none ∧ (HostTakes s bs.length → t.status = s.status ∧ Wrote bs s t) ∧
    (∀ m, s.writesLeft = some m → m < bs.length → t.status = .faultIo ∧ WroteUntilFail bs m s t) := by
  subst ht
  have frame : OutputFrame (link s) (writeOut bs (link s)) :=
    .writeThen bs _ fun _ => ⟨rfl, rfl, rfl, rfl, rfl, rfl, rfl, rfl⟩
  obtain ⟨hr7, hpc, hregs, hcond, hmem, hin⟩ := frame.afterLink
  refine ⟨hr7, hpc, hregs, hcond, hmem, hin, writeThen_running _ _ _ fun _ => rfl, writeOut_pending _ _,
    writeOut_takes (s := link s), fun m hw hm => ?_⟩
  obtain ⟨-, -, hfault⟩ := writeThen_fault (s := link s) id hw hm
  exact hfault

/-- Settles O48: OUT writes one byte; a host that takes none of it has written nothing. -/
theorem outWritesTheLowByte : Obligations.OutWritesTheLowByte := by
  intro s
  have ht : serveOut (link s) = writeOut [(s.reg .r0).setWidth 8] (link s) := by
    rw [serveOut, writeOut, lowByte_eq, link_reg_ne s .r0 (by decide)]
  obtain ⟨hr7, hpc, hregs, hcond, hmem, hin, hrun, hpend, htakes, hfails⟩ := writeOut_link ht
  refine ⟨_, rfl, hr7, hpc, hregs, hcond, hmem, hin, hrun, hpend, htakes, fun hw => ?_⟩
  obtain ⟨hst, hout, hleft⟩ := hfails 0 hw Nat.one_pos
  exact ⟨hst, by rw [hout, List.take_zero, List.append_nil], hleft.trans hw.symm⟩

/-- PUTS and PUTSP over a string write its words and end (R224, R226). -/
theorem serveString_link (p : Pending) (render : Word → List Byte) {s : State} {ws : List Word}
    (h : StringAt s.mem (s.reg .r0) ws) : serveString p render (link s) = writeOut (ws.flatMap render) (link s) :=
  serveString_string p render (link s) ws h

/-- A word up to 0x007F is rendered as its low byte (R224). -/
theorem putsRender_of_le {w : Word} (hw : w.toNat ≤ 0x007F) : Config.putsRender w = [w.setWidth 8] := by
  have hle : w ≤ 0x007F#16 := hw
  rw [Config.putsRender_eq, if_pos hle]
  exact congrArg (fun b => [b]) (lowByte_eq w)

/-- Settles O49: the scan finds the words, and PUTS writes what they are rendered as. -/
theorem putsWritesTheString : Obligations.PutsWritesTheString :=
  ⟨fun _ hw => putsRender_of_le hw, fun _ _ hstring => ⟨_, rfl, writeOut_link (serveString_link _ _ hstring)⟩⟩

/-- The bytes of a packed word by the word's value: the high byte is zero below 0x0100 (R226). -/
theorem putspRender_eq (w : Word) :
    putspRender w = if w.toNat < 256 then [w.setWidth 8] else [w.setWidth 8, (w >>> 8).setWidth 8] := by
  by_cases hw : w.toNat < 256
  · rw [putspRender, if_neg (not_not.mpr ((highByte_eq_zero w).mpr hw)), if_pos hw, lowByte_eq]
  · rw [putspRender, if_pos (mt (highByte_eq_zero w).mp hw), if_neg hw, lowByte_eq, highByte_eq]

/-- Settles O51: the scan finds the words, and PUTSP writes the bytes they pack. -/
theorem putspWritesThePackedString : Obligations.PutspWritesThePackedString := by
  intro s ws bytes hstring hbytes
  rw [← funext putspRender_eq] at hbytes
  subst hbytes
  exact ⟨_, rfl, writeOut_link (serveString_link _ _ hstring)⟩

/-! ### HALT -/

/-- Settles O53: HALT writes its message and ends the run, or ends it in IOFault. -/
theorem haltPrintsAndStops : Obligations.HaltPrintsAndStops := by
  intro s
  have frame : OutputFrame (link s) (serveHalt (link s)) :=
    .writeThen _ _ fun _ => ⟨rfl, rfl, rfl, rfl, rfl, rfl, rfl, rfl⟩
  obtain ⟨hr7, hpc, hregs, hcond, hmem, hin⟩ := frame.afterLink
  refine ⟨_, rfl, hr7, hpc, hregs, hcond, hmem, hin, ?pending, fun hw => ?takes, fun m hw hm => ?fails⟩
  case pending =>
    rcases writeThen_cases Config.haltMessage State.halt ((link s).setPending none) with ⟨-, e⟩ | ⟨m, -, -, e⟩ <;>
      rw [serveHalt, e] <;> rfl
  case takes =>
    rw [serveHalt, writeThen_takes Config.haltMessage State.halt ((link s).setPending none) hw]
    exact ⟨rfl, rfl, ⟨rfl, rfl⟩, step_stopped rfl⟩
  case fails =>
    obtain ⟨hrun, -, hst, hwrote⟩ := writeThen_fault (bs := Config.haltMessage) (s := link s) State.halt hw hm
    exact ⟨hrun, hst, hwrote, step_stopped (by rw [stopReason, serveHalt, hst])⟩

/-! ### PUTS and PUTSP over a memory with no zero word -/

/-- One round of a string service that does not end: its bytes, and the mark that it goes on (R229). -/
def writeRound (p : Pending) (bs : List Byte) (s : State) : State :=
  writeThen bs (fun u => u.setPending (some p)) (s.setPending none)

theorem writeRound_frame (p : Pending) (bs : List Byte) (s : State) : OutputFrame s (writeRound p bs s) :=
  .writeThen bs s fun _ => ⟨rfl, rfl, rfl, rfl, rfl, rfl, rfl, rfl⟩

theorem writeRound_running (p : Pending) (bs : List Byte) (s : State) : (writeRound p bs s).running = s.running :=
  writeThen_running _ _ _ fun _ => rfl

theorem writeRound_takes (p : Pending) {bs : List Byte} {s : State} (hw : HostTakes s bs.length) :
    (writeRound p bs s).pending = some p ∧ (writeRound p bs s).status = s.status ∧ Wrote bs s (writeRound p bs s) := by
  rw [writeRound, writeThen_takes bs _ (s.setPending none) hw]
  exact ⟨rfl, rfl, rfl, rfl⟩

theorem writeRound_fails (p : Pending) {bs : List Byte} {s : State} {m : Nat} (hw : s.writesLeft = some m)
    (hm : m < bs.length) :
    (writeRound p bs s).pending = none ∧ (writeRound p bs s).status = .faultIo ∧
    WroteUntilFail bs m s (writeRound p bs s) := by
  obtain ⟨-, hfault⟩ := writeThen_fault (fun u => u.setPending (some p)) hw hm
  exact hfault

/-- A run goes round, `bs` being a round's bytes: from `s` on nothing but the output, which has grown by whole rounds, and the
host's input side has changed. -/
structure GoesRound (p : Pending) (bs : List Byte) (s u : State) : Prop where
  runs : Runs u
  pending : u.pending = some p
  writesLeft : u.writesLeft = none
  regs : u.regs = s.regs
  pc : u.pc = s.pc
  cond : u.cond = s.cond
  mem : u.mem = s.mem
  out : ∃ rounds : Nat, u.out = s.out ++ (List.replicate rounds bs).flatten

theorem GoesRound.reg {p : Pending} {bs : List Byte} {s u : State} (h : GoesRound p bs s u) (q : Reg) :
    u.reg q = s.reg q :=
  congrArg (·.get q) h.regs

/-- One more round over a host that never fails. -/
theorem GoesRound.round {p : Pending} {bs : List Byte} {s u : State} (h : GoesRound p bs s u) :
    GoesRound p bs s (writeRound p bs (hostTurn u)) := by
  have hleft : (hostTurn u).writesLeft = none := (hostTurn_writesLeft u).trans h.writesLeft
  have hw : HostTakes (hostTurn u) bs.length := fun m hm => absurd (hleft.symm.trans hm) nofun
  obtain ⟨hregs, hpc, hcond, hmem, -⟩ := writeRound_frame p bs (hostTurn u)
  obtain ⟨hpend, hst, hout, hleft'⟩ := writeRound_takes p hw
  obtain ⟨rounds, hrounds⟩ := h.out
  obtain ⟨hstatus, hrunning⟩ := hostTurn_runs h.runs
  exact {
    runs := ⟨hst.trans hstatus, (writeRound_running p bs _).trans hrunning⟩
    pending := hpend
    writesLeft := by rw [hleft', hleft]; rfl
    regs := hregs.trans ((hostTurn_regs u).trans h.regs)
    pc := hpc.trans ((hostTurn_pc u).trans h.pc)
    cond := hcond.trans ((hostTurn_cond u).trans h.cond)
    mem := hmem.trans ((hostTurn_mem u).trans h.mem)
    out := ⟨rounds + 1, by
      rw [hout, hostTurn_out, hrounds, List.replicate_succ', List.flatten_append, List.flatten_singleton,
        List.append_assoc]⟩ }

/-- Where the service in progress writes a round in every state with this memory and this R0, every state a run reaches goes
round. -/
theorem goesRound_of_reaches {p : Pending} {bs : List Byte} {s u : State}
    (hround : ∀ t : State, t.mem = s.mem → t.reg .r0 = s.reg .r0 → resume p t = writeRound p bs t)
    (hr : Runs s) (hp : s.pending = some p) (hleft : s.writesLeft = none) (hreach : Reaches s u) :
    GoesRound p bs s u := by
  induction hreach with
  | here => exact ⟨hr, hp, hleft, rfl, rfl, rfl, rfl, 0, by simp⟩
  | @step t v _ hstep ih =>
    have hresume : resume p (hostTurn t) = writeRound p bs (hostTurn t) :=
      hround _ ((hostTurn_mem t).trans ih.mem) ((hostTurn_reg t .r0).trans (ih.reg .r0))
    rw [step_resume ih.runs ih.pending, hresume] at hstep
    cases hstep
    exact ih.round

/-- Settles O52: over such a memory the service writes a round and marks itself again, from the instruction and from every
later step alike; so a run that never fails is an induction over its steps. -/
theorem stringWithoutEndNeverCompletes : Obligations.StringWithoutEndNeverCompletes := by
  intro s i p render hservice hmem
  obtain ⟨hexec, hresume⟩ : exec i s = .next (resume p (link s)) ∧ ∀ t, resume p t = serveString p render t := by
    rcases hservice with ⟨rfl, rfl, rfl⟩ | ⟨rfl, rfl, rfl⟩ <;> exact ⟨rfl, fun _ => rfl⟩
  obtain ⟨ws, hlength, hwords, hserve⟩ := serveString_endless p render s hmem
  have hround (t : State) (hm : t.mem = s.mem) (h0 : t.reg .r0 = s.reg .r0) :
      resume p t = writeRound p (ws.flatMap render) t := (hresume t).trans (hserve t hm h0)
  refine ⟨ws, hlength, hwords, ?instruction, fun hr hp => ?step, fun hr hp hleft u hreach => ?run⟩
  case instruction =>
    obtain ⟨hr7, hpc, hregs, hcond, hsame, hin⟩ := (writeRound_frame p (ws.flatMap render) (link s)).afterLink
    rw [hexec, hround (link s) rfl rfl]
    exact ⟨_, rfl, hr7, hpc, hregs, hcond, hsame, hin, writeRound_running _ _ _, writeRound_takes p (s := link s),
      fun m => writeRound_fails p (s := link s)⟩
  case step =>
    have frame := writeRound_frame p (ws.flatMap render) (hostTurn s)
    rw [step_resume hr hp, hround _ (hostTurn_mem s) (hostTurn_reg s .r0)]
    refine ⟨_, rfl, fun q => (frame.reg q).trans (hostTurn_reg s q), frame.pc.trans (hostTurn_pc s),
      frame.cond.trans (hostTurn_cond s), fun a => by rw [frame.mem, hostTurn_mem], frame.input,
      (writeRound_running _ _ _).trans (hostTurn_running s), fun hw => ?_, fun m hw hm => ?_⟩
    · simpa only [Wrote, hostTurn_status, hostTurn_out, hostTurn_writesLeft] using
        writeRound_takes p (hostTakes_hostTurn hw)
    · simpa only [WroteUntilFail, hostTurn_out] using
        writeRound_fails p ((hostTurn_writesLeft s).trans hw) hm
  case run =>
    have h := goesRound_of_reaches hround hr hp hleft hreach
    exact ⟨h.runs, h.pending, h.reg, h.pc, h.cond, fun a => by rw [h.mem], h.out⟩

end Sys2Proof.Machine

/-!
PROOF. Where a fault comes from (spec/60_exceptions.md R271, R272, R277): IllegalOpcodeFault from RTI and RES, IOFault from a
trap service. O16.
-/

namespace Sys2Proof.Machine

/-- A service that begins while the run goes on never ends in IllegalOpcodeFault (R271). -/
theorem ServiceEffect.not_illegal {s t : State} (he : ServiceEffect s t) (hst : s.status = .running) :
    t.status ≠ .faultIllegalOpcode := by
  rcases he.run with ⟨-, e | e⟩ | ⟨-, e⟩ <;> simp [e, hst]

/-- RTI and RES alone raise IllegalOpcodeFault (R271, R277). -/
theorem exec_illegal {i : Instr} {s t : State} (hx : exec i s = .next t) (hst : s.status = .running)
    (hfault : t.status = .faultIllegalOpcode) : i = .rti ∨ i = .res := by
  cases exec_shape hx with
  | illegal hi => exact hi
  | result | jump | stay | call | trapLink => simp [hst] at hfault
  | load dr ea u _ _ hu | store ea v u _ hu => rcases hu with rfl | ⟨b, rfl⟩ <;> simp [hst] at hfault
  | service t _ hs => exact absurd hfault ((service_effect hs).not_illegal hst)

/-- The six trap services alone raise IOFault (R272, R277). -/
theorem exec_io {i : Instr} {s t : State} (hx : exec i s = .next t) (hst : s.status = .running)
    (hfault : t.status = .faultIo) :
    i.canonical ∈ [Instr.trapGetc, .trapOut, .trapPuts, .trapIn, .trapPutsp, .trapHalt] := by
  cases exec_shape hx with
  | illegal => simp at hfault
  | result | jump | stay | call | trapLink => simp [hst] at hfault
  | load dr ea u _ _ hu | store ea v u _ hu => rcases hu with rfl | ⟨b, rfl⟩ <;> simp [hst] at hfault
  | service t _ hs => rcases hs with ⟨e, -⟩ | ⟨e, -⟩ | ⟨e, -⟩ | ⟨e, -⟩ | ⟨e, -⟩ | ⟨e, -⟩ <;> simp [e]

/-- Settles O16: a service in progress ends in no IllegalOpcodeFault; of the instructions, RTI and RES raise that fault and the
six services the other. -/
theorem faultSources : Obligations.FaultSources := by
  intro s t hstep
  obtain ⟨hr, ⟨p, hp, rfl⟩ | ⟨hp, rfl⟩⟩ := step_cases hstep
  · obtain ⟨hst, -⟩ := hostTurn_runs hr
    exact ⟨fun hfault => absurd hfault ((resume_effect p _).not_illegal hst), fun _ => .inl (by simp [hp])⟩
  · obtain ⟨hst, -⟩ := fetched_runs hr
    have hx := exec_eq_after (decode (fetch (hostTurn s)).1) (fetched s)
    exact ⟨fun hfault => ⟨hp, exec_illegal hx hst hfault⟩,
      fun hfault => .inr (decode_canonical _ ▸ exec_io hx hst hfault)⟩

end Sys2Proof.Machine

/-!
PROOF. The image loader (spec/70_reset_and_hazards.md R320 to R323, R273): the cells it writes, the cells it leaves, the bytes
it does not take up, and the order of several images. O57, O58, O59, O60.
-/

namespace Sys2Proof.Machine

/-- The loader's answer for every file with an origin (R320): only the memory changes. -/
theorem loadImage_origin (b0 b1 : Byte) (bytes : List Byte) (s : State) :
    loadImage (b0 :: b1 :: bytes) s = .ok (s.setMem (loadWords s.mem (b0.toNat * 256 + b1.toNat) bytes)) := by
  rw [← wordOfBytes_toNat]; rfl

/-- Two images with one origin whose bytes fill the memory alike load alike. -/
theorem loadImage_congr {b0 b1 : Byte} {bytes bytes' : List Byte} {s : State}
    (h : loadWords s.mem (b0.toNat * 256 + b1.toNat) bytes = loadWords s.mem (b0.toNat * 256 + b1.toNat) bytes') :
    loadImage (b0 :: b1 :: bytes) s = loadImage (b0 :: b1 :: bytes') s := by
  rw [loadImage_origin, loadImage_origin, h]

/-- From above 0xFFFF nothing is loaded (R321). -/
theorem loadWords_of_ge {a : Nat} (ha : 65536 ≤ a) (m : Memory) (bytes : List Byte) : loadWords m a bytes = m := by
  unfold loadWords
  split
  · exact if_neg (by simpa [Config.memWords] using ha)
  · rfl

/-- `loadWords_cons` for an image given by its pairs of bytes. -/
theorem loadWords_pair (w : Byte × Byte) (rest : List (Byte × Byte)) (m : Memory) (a : Nat) (ha : a < 65536) :
    loadWords m a ((w :: rest).flatMap (fun w => [w.1, w.2])) =
      loadWords (m.write (BitVec.ofNat 16 a) (wordOfBytes w.1 w.2)) (a + 1) (rest.flatMap (fun w => [w.1, w.2])) :=
  loadWords_cons _ _ _ _ _ ha

/-- A cell before the first word loaded, or after the last, reads as before. -/
theorem loadWords_read_outside (ws : List (Byte × Byte)) (m : Memory) (a : Nat) (ha : a + ws.length ≤ 65536) (c : Word)
    (hc : c.toNat < a ∨ a + ws.length ≤ c.toNat) :
    (loadWords m a (ws.flatMap (fun w => [w.1, w.2]))).read c = m.read c := by
  induction ws generalizing m a with
  | nil => rfl
  | cons w rest ih =>
    rw [List.length_cons] at ha hc
    have hne : c ≠ BitVec.ofNat 16 a := by rintro rfl; rw [BitVec.toNat_ofNat] at hc; omega
    rw [loadWords_pair w rest m a (by omega), ih _ _ (by omega) (by omega), Memory.read_write_ne _ _ _ _ hne]

/-- The i-th word loaded from address `a` on is read at `a + i`: no later word of the image overwrites it. -/
theorem loadWords_read_word (ws : List (Byte × Byte)) (m : Memory) (a : Nat) (ha : a + ws.length ≤ 65536) (i : Nat)
    (hi : i < ws.length) :
    (loadWords m a (ws.flatMap (fun w => [w.1, w.2]))).read (BitVec.ofNat 16 (a + i)) =
      wordOfBytes ws[i].1 ws[i].2 := by
  induction ws generalizing m a i with
  | nil => cases hi
  | cons w rest ih =>
    rw [List.length_cons] at ha hi
    rw [loadWords_pair w rest m a (by omega)]
    cases i with
    | zero =>
      have hbefore : (BitVec.ofNat 16 a).toNat < a + 1 := by rw [BitVec.toNat_ofNat]; omega
      exact (loadWords_read_outside rest _ _ (by omega) _ (.inl hbefore)).trans (Memory.read_write_same _ _ _)
    | succ j =>
      rw [← Nat.add_assoc, Nat.add_right_comm]
      exact ih _ _ (by omega) j (by omega)

/-- A single byte after whole words is dropped (R323), wherever the loader stands by then. -/
theorem loadWords_drop_byte (ws : List (Byte × Byte)) (m : Memory) (a : Nat) (b : Byte) :
    loadWords m a (ws.flatMap (fun w => [w.1, w.2]) ++ [b]) = loadWords m a (ws.flatMap (fun w => [w.1, w.2])) := by
  induction ws generalizing m a with
  | nil => rfl
  | cons w rest ih =>
    rcases Nat.lt_or_ge a 65536 with hbelow | habove
    · exact (loadWords_cons m a w.1 w.2 _ hbelow).trans ((ih _ _).trans (loadWords_cons m a w.1 w.2 _ hbelow).symm)
    · rw [loadWords_of_ge habove, loadWords_of_ge habove]

/-- Settles O57: the loader's words are read back where they were put, and it changes the memory alone. -/
theorem imageRoundTrip : Obligations.ImageRoundTrip := by
  rintro b0 b1 ws o s rfl hfits
  refine ⟨_, loadImage_origin b0 b1 _ s, fun i hi => ?word, fun a ha => loadWords_read_outside ws s.mem _ hfits a ha,
    fun _ => rfl, rfl, rfl, ⟨rfl, rfl, rfl⟩, ⟨rfl, rfl, rfl, rfl⟩, rfl, rfl⟩
  case word => exact (congrArg BitVec.toNat (loadWords_read_word ws s.mem _ hfits i hi)).trans (wordOfBytes_toNat _ _)

/-- Settles O58: after the words that end at 0xFFFF the loader stands above the memory and takes up nothing more. -/
theorem loaderStopsAtTheTop : Obligations.LoaderStopsAtTheTop := by
  intro b0 b1 ws more s htop
  exact loadImage_congr ((loadWords_append ws s.mem _ more htop.le).trans (loadWords_of_ge htop.ge _ _))

/-- Settles O59: the malformed files one by one; the byte that makes no word is dropped by `loadWords_drop_byte`. -/
theorem malformedImages : Obligations.MalformedImages := by
  intro s
  refine ⟨rfl, fun _ => rfl, rfl, fun _ => rfl, fun _ _ => rfl, fun _ _ ws b => ?oddByte⟩
  case oddByte => exact loadImage_congr (loadWords_drop_byte ws s.mem _ b)

/-- Settles O60: `loadImages` goes on after a file that loads and stops at one that does not. -/
theorem imagesLoadInOrder : Obligations.ImagesLoadInOrder := by
  refine ⟨fun _ => rfl, fun f rest s => ⟨fun t hload => ?loaded, fun e hload => ?failed⟩⟩
  case loaded => rw [loadImages, hload]
  case failed => rw [loadImages, hload]

end Sys2Proof.Machine
